-- ==== Sys2Proof/Config.lean ====
section
/-! DEFINITION. The build-time parameters of 00_scope R6, the names of the two modes, and the one
value the spec leaves unspecified. (The parameter UNDERFLOW is chosen beside the packer, in
Machine/Codec.lean.) -/

namespace Sys2Proof.Config

/-- `WIDTH`: bits of a packed value (00_scope R6). -/
abbrev WIDTH : Nat := 16

/-- `W`: fraction bits of a lookup-table entry and of the linear significand (00_scope R6, D8). -/
abbrev W : Nat := 32

/-- `KBIAS = 2^14`: the bias in grid units, the same for every f (00_scope R6, R8). -/
abbrev KBIAS : Int := 16384

/-- `KMAX`: the largest exponent in grid units (00_scope R6, 42_codec R62). -/
abbrev KMAX : Int := 16383

/-- `KMIN`: the smallest exponent in grid units (00_scope R6, 42_codec R62). -/
abbrev KMIN : Int := -16383

/-- `NPORTS`: command ports (00_scope R6, D1); `commandPorts` of Machine/Ops.lean has that many. -/
abbrev NPORTS : Nat := 1

/-- Entries of each physical array, the length for f = 11 (10_state R12). -/
abbrev LUTSIZE : Nat := 2048

/-- A binary floating-point format in the layout of IEEE 754: a sign bit, an exponent field, a fraction
field, from the most significant bit down (46_conversion, introduction; 93 GK1). -/
structure FloatFormat where
  expBits : Nat
  fracBits : Nat
deriving DecidableEq, Repr

/-- Bits of a word of the format. -/
def FloatFormat.width (T : FloatFormat) : Nat := 1 + T.expBits + T.fracBits

/-- The bias of the exponent field, and the exponent of the greatest octave: 127 for binary32. -/
def FloatFormat.bias (T : FloatFormat) : Nat := 2 ^ (T.expBits - 1) - 1

/-- The exponent field of an infinity or a NaN: 255 for binary32. -/
def FloatFormat.expMax (T : FloatFormat) : Nat := 2 ^ T.expBits - 1

/-- IEEE 754 binary32: "sign bit 31, 8-bit exponent field bits 30:23 with bias 127, 23-bit fraction
bits 22:0" (46_conversion, introduction; 93 GK1). -/
def binary32 : FloatFormat := { expBits := 8, fracBits := 23 }

/-- `LINFLOAT`: the linear-side floating-point format (00_scope R6, D16). -/
abbrev LINFLOAT : FloatFormat := binary32

/-- A two's-complement integer format (46_conversion, introduction; 93 GK3). -/
structure IntFormat where
  width : Nat
deriving DecidableEq, Repr

/-- The greatest integer of the format plus one, and the magnitude of the least: the weight of the sign
bit, `2^31` for int32. -/
def IntFormat.bound (T : IntFormat) : Nat := 2 ^ (T.width - 1)

/-- The 32-bit two's-complement integers (46_conversion, introduction; 93 GK3). -/
def int32 : IntFormat := { width := 32 }

/-- `LININT`: the linear-side integer format (00_scope R6, D19). -/
abbrev LININT : IntFormat := int32

/-- The rounding modes `lin` and `log` (00_scope R5). -/
inductive RMode where
  | lin
  | log
deriving DecidableEq, Repr

/-- The two readings of an exponent below `KMIN` (42_codec R64, 90_conflicts C3). -/
inductive Underflow where
  | saturate
  | flush
deriving DecidableEq, Repr

/-- The two arrays of the lookup table (10_state R12). -/
inductive LutArray where
  | exp2
  | log2
deriving DecidableEq, Repr

/-- FREE VALUE (log 5): what the entry at an index stands for that the last rebuild did not write.
10_state R12: such entries "are never read and their contents are unspecified". Nothing constrains
it; no state with `Inv` reads it. -/
opaque unspecifiedEntry : LutArray → Nat → BitVec W

end Sys2Proof.Config
end

