-- ==== Sys2Proof/Word.lean ====
section
/-! DEFINITION. The widths of the words that cross the LFP16 unit's command port. -/

namespace Sys2Proof

/-- A packed value: the pattern of 10_state R14, of `WIDTH` bits (00_scope R6; `packed_width`). -/
abbrev Packed := BitVec 16

/-- The width of a packed value is the parameter WIDTH; with another value of it this is refused. -/
theorem packed_width : Packed = BitVec Config.WIDTH := rfl

/-- A 32-bit field of a command or of a response: a linear operand, a configuration value or a
result (30_encoding R30, R37). -/
abbrev Word32 := BitVec 32

/-- A command word or a response word (30_encoding R30, R37). -/
abbrev Word64 := BitVec 64

/-- A lookup-table entry, of `W` bits (10_state R12, 00_scope R6; `entry_width`). -/
abbrev Entry := BitVec 32

/-- The width of an entry is the parameter W; with another value of it this is refused. -/
theorem entry_width : Entry = BitVec Config.W := rfl

end Sys2Proof
end

