-- ==== Sys2Proof/Machine/Lut.lean ====
section
/-! DEFINITION. The lookup table LUT: its two arrays, their generation (41_lut R50 to R53) and the two
lookup functions (R55, R56). -/

namespace Sys2Proof.Machine

open Sys2Proof.Config

/-- LUT (10_state R12): the entries in use, `F = 2^f` in each array (93 U6, log 5). -/
structure Lut where
  exp2t : List Entry
  log2t : List Entry
deriving DecidableEq, Repr

/-- `F = 2^f`, the grid points per octave and the length of each array (00_scope R5). -/
def gridPoints (f : BitVec 4) : Nat := 2 ^ f.toNat

/-- One half of the exact integer test of 41_lut R51 and R53: `(2*(2^32 + x) - 1)^q <= 2^(33*q + p)`,
which says that `x` is no more than the integer nearest to `2^32 * (2^(p/q) - 1)`. -/
def notAbove (q p x : Nat) : Bool := Nat.ble ((2 * (2 ^ W + x) - 1) ^ q) (2 ^ ((W + 1) * q + p))

/-- The search for the greatest `x` with `notAbove q p x`, from bit `n - 1` of `x` downwards. -/
def searchEntry (q p : Nat) : Nat → Nat → Nat
  | 0, x => x
  | n + 1, x =>
    match notAbove q p (x + 2 ^ n) with
    | true => searchEntry q p n (x + 2 ^ n)
    | false => searchEntry q p n x

/-- `RNE(2^32 * (2^(p/q) - 1))` for `0 <= p < q`: "the unique integer x" of the test of 41_lut R51 and
R53, the greatest that passes its first half (log 15). -/
def nearestEntry (q p : Nat) : Nat := searchEntry q p W 0

/-- `EXP2T[i]` (41_lut R51). -/
def exp2Value (F i : Nat) : Nat := nearestEntry F i

/-- `E[i]` of 41_lut R52: `EXP2T[i]` for `i < F`, and `2^32` for `i = F`. -/
def gridFraction (F i : Nat) : Nat := if i = F then 2 ^ W else exp2Value F i

/-- `LOG2T[i]` in lin mode from `x = E[i] + E[i+1]` (41_lut R52). -/
def linThreshold (i x : Nat) : Nat := if x % 2 = 0 ∧ i % 2 = 0 then x / 2 + 1 else (x + 1) / 2

/-- `LOG2T[i]` (41_lut R52 in lin mode, R53 in log mode). -/
def log2Value (F : Nat) (rmode : RMode) (i : Nat) : Nat :=
  match rmode with
  | .lin => linThreshold i (gridFraction F i + gridFraction F (i + 1))
  | .log => nearestEntry (2 * F) (2 * i + 1)

/-- `Rebuild(f, rmode)`: entries 0 to F-1 of both arrays (41_lut R50). -/
def rebuild (f : BitVec 4) (rmode : RMode) : Lut where
  exp2t := (List.range (gridPoints f)).map fun i => BitVec.ofNat W (exp2Value (gridPoints f) i)
  log2t := (List.range (gridPoints f)).map fun i => BitVec.ofNat W (log2Value (gridPoints f) rmode i)

/-- `EXP2T[i]` as the unit reads it; an entry no rebuild wrote is unspecified (10_state R12, log 5). -/
def exp2Entry (t : Lut) (i : Nat) : Entry := t.exp2t.getD i (unspecifiedEntry .exp2 i)

/-- `LOG2T[0..F-1]` as the unit reads them; an entry no rebuild wrote is unspecified (10_state R12,
log 5). -/
def log2Entries (t : Lut) (F : Nat) : List Entry :=
  t.log2t.take F ++ (List.range' t.log2t.length (F - t.log2t.length)).map (unspecifiedEntry .log2)

/-- `Exp2Lookup(i)`: the 33-bit significand `2^32 + EXP2T[i]` (41_lut R55). -/
def exp2Lookup (t : Lut) (i : Nat) : Nat := 2 ^ W + (exp2Entry t i).toNat

/-- `Log2Lookup(m)`: the number of indices i in 0..F-1 with `LOG2T[i] <= m` (41_lut R56). -/
def log2Lookup (t : Lut) (F m : Nat) : Nat := (log2Entries t F).countP fun e => e.toNat ≤ m

end Sys2Proof.Machine
end

