-- ==== Sys2Proof/Machine/State.lean ====
section
/-! DEFINITION. The state of the LFP16 unit (10_state R10): CFG and LUT, and beside them the host's
side of the command port (30_encoding R37, R42). Plain data. -/

namespace Sys2Proof.Machine

open Sys2Proof.Config

/-- CFG, the unit's one control register (10_state R11). Its field I is no storage: `Cfg.intBits`. -/
structure Cfg where
  /-- `f`, the fraction width: 4 bits, legal values 7 to 11. -/
  f : BitVec 4
  /-- `rmode`, the rounding mode: 1 bit, 0 = lin, 1 = log. -/
  rmode : RMode
deriving DecidableEq, Repr

/-- What the host can present between two commands: a command word on the command port
(30_encoding R30, R42), or the reset line (70 R120, 93 U7). -/
inductive Input where
  | command (c : Word64)
  | reset
deriving DecidableEq, Repr

/-- The four faults a command can answer with (60_exceptions R101). They are answers, not stops. -/
inductive CommandFault where
  /-- Code 1: SETFRAC with an operand outside 7..11 (R102). -/
  | invalidFormat
  /-- Code 2: SETRND with an operand other than 0 and 1 (R103). -/
  | invalidRoundingMode
  /-- Code 3: SQRT of a Finite pattern with bit 15 set (R104). -/
  | negativeRadicand
  /-- Code 4: a word that is no command (R105). -/
  | illegalCommand
deriving DecidableEq, Repr

/-- A response: "a sum type, a result or a fault" (30_encoding R37). A result carries `R` and the
NOTICE bit (60_exceptions R108). -/
inductive Response where
  | result (r : Word32) (notice : Bool)
  | fault (x : CommandFault)
deriving DecidableEq, Repr

/-- The state: the unit's own (10_state R10) and, as the model's own fields, the host's side of the
port (log 1, log 2). -/
structure State where
  /-- CFG (10_state R11). -/
  cfg : Cfg
  /-- LUT (10_state R12). -/
  lut : Lut
  /-- MODEL's field: what the host presents, the first to be accepted first (20_memory R25). -/
  inputs : List Input
  /-- MODEL's field: the responses presented so far, oldest first; no rule reads it. -/
  responses : List Response
deriving DecidableEq, Repr

/-- Why the machine stops: nothing stops this unit (93: "Nothing in this unit has the treatment
`stuck`"), so the type has no constructor. `raise X` of the spec is a response and a next state
(60_exceptions R100, log 6). -/
inductive Fault
deriving DecidableEq, Repr

/-- Why the model has no meaning for an instruction. -/
inductive Refusal where
  /-- Raised by no arm of `exec`: every command has its meaning. It would be safe. -/
  | notModelled (mnemonic : String)
deriving DecidableEq, Repr

/-- The machine right after reset (70 R120): f = 8, lin, LUT = Rebuild(8, lin), no command pending.
The two port fields are empty (log 1, log 2). -/
def State.reset : State where
  cfg := { f := 8, rmode := .lin }
  lut := rebuild 8 .lin
  inputs := []
  responses := []

end Sys2Proof.Machine
end

