-- ==== Sys2Proof/Machine/Codec.lean ====
section
/-! DEFINITION. The codec core: the integer fields that follow from CFG, unpacking, saturation,
packing, the three roundings into the format and the reconstruction of a linear value
(42_codec R60 to R69; 46_conversion R92). -/

namespace Sys2Proof.Machine

open Sys2Proof.Config

/-- CFG.I, "always `15 - f`": the bits of a pattern below the sign that are no fraction (10_state R11,
R14). -/
def Cfg.intBits (c : Cfg) : BitVec 4 := BitVec.ofNat 4 (WIDTH - 1) - c.f

/-- `F = 2^f` of the active configuration (00_scope R5). -/
def Cfg.gridPoints (c : Cfg) : Nat := Machine.gridPoints c.f

/-- `bias = 2^(I-1)` (00_scope R5, 90_conflicts C2). -/
def Cfg.bias (c : Cfg) : Nat := 2 ^ (c.intBits.toNat - 1)

/-- The pattern of Zero (42_codec R61; symbol ZERO of 30_encoding R40). -/
def patternZero : Packed := 0x0000

/-- The pattern of NaR (42_codec R61; symbol NAR of 30_encoding R40). -/
def patternNaR : Packed := 0x8000

/-- `floatmin` for every f (42_codec R62; symbol FMIN of 30_encoding R40). -/
def patternMin : Packed := 0x0001

/-- `floatmax` for every f (42_codec R62; symbol FMAX of 30_encoding R40). -/
def patternMax : Packed := 0x7FFF

/-- The pattern of 1 (symbol ONE of 30_encoding R40). -/
def patternOne : Packed := 0x4000

/-- The sign bit `x[15]` (10_state R14). -/
def signOf (x : Packed) : Bool := x.getLsbD (WIDTH - 1)

/-- The magnitude field `M = x[14:0]` (10_state R14). -/
def magnitudeOf (x : Packed) : BitVec 15 := x.extractLsb' 0 15

/-- The biased integer `bi = x[14:f]`, I bits (10_state R14). -/
def biasedOf (c : Cfg) (x : Packed) : Nat := (magnitudeOf x).toNat / c.gridPoints

/-- The fraction `fr = x[f-1:0]` (10_state R14). -/
def fractionOf (c : Cfg) (x : Packed) : Nat := (magnitudeOf x).toNat % c.gridPoints

/-- The semantic value of a pattern: `(tag, s, K)` of `Unpack`, where the s and K of Zero and NaR
"are never used" (42_codec R60). -/
inductive Value where
  | zero
  | nar
  | finite (s : Bool) (K : Int)
deriving DecidableEq, Repr

/-- `Unpack(x)` (42_codec R60). It does not read CFG. -/
def unpack (x : Packed) : Value :=
  if x = patternZero then .zero
  else if x = patternNaR then .nar
  else .finite (signOf x) ((magnitudeOf x).toNat - KBIAS)

/-- `Saturate(K)` (42_codec R63). -/
def saturate (K : Int) : Int :=
  if K > KMAX then KMAX else if K < KMIN then KMIN else K

/-- The pattern with sign s and exponent K in range: `{s, (K + 16384)[14:0]}` (42_codec R65). -/
def pattern (s : Bool) (K : Int) : Packed := BitVec.ofBool s ++ BitVec.ofInt 15 (K + KBIAS)

/-- `Pack(s, K)` under either reading of underflow (42_codec R64, R65): `flush` replaces the lower
clamp by "if `K < KMIN` the result of `Pack` is 0x0000 whatever s is". -/
def packUnder (u : Underflow) (s : Bool) (K : Int) : Packed :=
  match u with
  | .saturate => pattern s (saturate K)
  | .flush => if K < KMIN then patternZero else pattern s (saturate K)

/-- The build parameter UNDERFLOW, `saturate` (00_scope R6, 42_codec R64, 90_conflicts C3; log 7). -/
def underflow : Underflow := .saturate

/-- `Pack(s, K)` (42_codec R65). -/
def pack (s : Bool) (K : Int) : Packed := packUnder underflow s K

/-- The exponent `EncodeLog` chooses for `K2` half grid units (42_codec R66): half of an even K2; of
an odd one the grid point below in lin mode, the even neighbour in log mode. -/
def roundHalf (rmode : RMode) (K2 : Int) : Int :=
  if K2 % 2 = 0 then K2 / 2
  else
    let lo := (K2 - 1) / 2
    match rmode with
    | .lin => lo
    | .log => if lo % 2 = 0 then lo else lo + 1

/-- `EncodeLog(s, K2)` (42_codec R66). -/
def encodeLog (rmode : RMode) (s : Bool) (K2 : Int) : Packed := pack s (roundHalf rmode K2)

/-- `EncodeLin(s, e, sig)` (42_codec R67). -/
def encodeLin (c : Cfg) (t : Lut) (s : Bool) (e : Int) (sig : Nat) : Packed :=
  pack s (e * c.gridPoints + log2Lookup t c.gridPoints (sig - 2 ^ W))

/-- The significand of `Normalise(S)`: the top 33 bits of S, lower bits dropped (42_codec R68). -/
def significand (S : Nat) : Nat :=
  if W ≤ Nat.log2 S then S >>> (Nat.log2 S - W) else S <<< (W - Nat.log2 S)

/-- `Normalise(S) = (p, sig)` with `p = msb(S)`, for S > 0 (42_codec R68). -/
def normalise (S : Nat) : Nat × Nat := (Nat.log2 S, significand S)

/-- The integer part `e = K div F` of an exponent (42_codec R69). -/
def octave (c : Cfg) (K : Int) : Int := K / c.gridPoints

/-- The fraction index `i = K mod F` of an exponent (42_codec R69). -/
def gridIndex (c : Cfg) (K : Int) : Nat := (K % c.gridPoints).toNat

/-- `Linear(K) = (N, q)`, standing for `N * 2^q` (42_codec R69). -/
def linear (c : Cfg) (t : Lut) (K : Int) : Nat × Int :=
  (exp2Lookup t (gridIndex c K), octave c K - W)

/-- `RneShift(N, r)`: `N * 2^(-r)` rounded to the nearest integer, ties to even (46_conversion R92). -/
def rneShift (N : Nat) (r : Int) : Nat :=
  if r ≤ 0 then N <<< (-r).toNat
  else
    let q := N >>> r.toNat
    let rem := N % 2 ^ r.toNat
    let half := 2 ^ (r.toNat - 1)
    if rem > half ∨ (rem = half ∧ q % 2 = 1) then q + 1 else q

end Sys2Proof.Machine
end

