-- ==== Sys2Proof/Machine/Operands.lean ====
section
/-! DEFINITION. How the 32-bit operand `x = A[31:0]` is read (30_encoding R33), and how a result is
put into the 32-bit field R (R37). A packed operand is its 16-bit field unchanged. -/

namespace Sys2Proof.Machine

open Sys2Proof.Config

/-- SETFRAC and SETRND read x as an unsigned 32-bit integer (30_encoding R33). -/
def operandUnsigned (x : Word32) : Nat := x.toNat

/-- FROMI reads x as an integer of the format LININT: its sign `n[31]` (46_conversion R95). -/
def intSign (n : Word32) : Bool := n.getLsbD (LININT.width - 1)

/-- FROMI's `mag = |n|`: `2^32 - n` if the sign is 1, else n (46_conversion R95). -/
def intMagnitude (n : Word32) : Nat := if intSign n then 2 ^ LININT.width - n.toNat else n.toNat

/-- `s = x[31]` of a word of the format LINFLOAT (46_conversion R93). -/
def floatSign (x : Word32) : Bool := x.getLsbD (LINFLOAT.width - 1)

/-- `E8 = x[30:23]` of a word of the format LINFLOAT (46_conversion R93). -/
def floatExponent (x : Word32) : Nat := (x.extractLsb' LINFLOAT.fracBits LINFLOAT.expBits).toNat

/-- `fr = x[22:0]` of a word of the format LINFLOAT (46_conversion R93). -/
def floatFraction (x : Word32) : Nat := (x.extractLsb' 0 LINFLOAT.fracBits).toNat

/-- A binary32 operand as FROMF takes it (46_conversion R93): infinity or NaN, zero of either sign, or
the sign, exponent and 33-bit significand that stand exactly for any other number. -/
inductive FloatOperand where
  | notReal
  | zero
  | number (s : Bool) (e : Int) (sig : Nat)
deriving DecidableEq, Repr

/-- FROMF's reading of a binary32 word (46_conversion R93); subnormals are normalised exactly. -/
def readFloat (x : Word32) : FloatOperand :=
  if floatExponent x = LINFLOAT.expMax then .notReal
  else if floatExponent x = 0 ∧ floatFraction x = 0 then .zero
  else if floatExponent x = 0 then
    let p := Nat.log2 (floatFraction x)
    .number (floatSign x) ((p : Int) - (LINFLOAT.bias - 1 + LINFLOAT.fracBits : Nat))
      (floatFraction x <<< (W - p))
  else
    .number (floatSign x) ((floatExponent x : Int) - LINFLOAT.bias)
      ((2 ^ LINFLOAT.fracBits + floatFraction x) <<< (W - LINFLOAT.fracBits))

/-- The word `{s, E8, fr}` of the format LINFLOAT, of the low bits of E8 and of fr (46_conversion
R94). -/
def floatWord (s : Bool) (E8 fr : Nat) : Word32 :=
  BitVec.ofNat 32 (s.toNat * 2 ^ (LINFLOAT.width - 1) +
    E8 % 2 ^ LINFLOAT.expBits * 2 ^ LINFLOAT.fracBits + fr % 2 ^ LINFLOAT.fracBits)

/-- A packed result in R: zero-extended to 32 bits (30_encoding R37). -/
def packedResult (x : Packed) : Word32 := x.setWidth 32

/-- A comparison result in R: 0 or 1 (30_encoding R37, 45_compare). -/
def truthResult (b : Bool) : Word32 := if b then 1 else 0

end Sys2Proof.Machine
end

