-- ==== Sys2Proof/Syntax.lean ====
section
/-! DEFINITION. The twenty commands of 30_encoding R31, one constructor per row of the opcode table,
each with the operands of its format (R32). -/

namespace Sys2Proof

/-- A command of the LFP16 unit (30_encoding R31). Operands are the fields of the command word as
they stand (R33): `a` is A[15:0] and `b` is B[15:0], packed values; `n`, `m`, `x` are A[31:0]. -/
inductive Instr where
  /-- GETCFG, format N, OP 0x01 (40_config R45). -/
  | getcfg
  /-- SETFRAC n, format U32, OP 0x02 (40_config R46). -/
  | setfrac (n : Word32)
  /-- SETRND m, format U32, OP 0x03 (40_config R47). -/
  | setrnd (m : Word32)
  /-- MUL a, b, format B16, OP 0x10 (43_multiplicative R70). -/
  | mul (a b : Packed)
  /-- DIV a, b, format B16, OP 0x11 (43_multiplicative R71). -/
  | div (a b : Packed)
  /-- SQR a, format U16, OP 0x12 (43_multiplicative R72). -/
  | sqr (a : Packed)
  /-- SQRT a, format U16, OP 0x13 (43_multiplicative R73). -/
  | sqrt (a : Packed)
  /-- INV a, format U16, OP 0x14 (43_multiplicative R74). -/
  | inv (a : Packed)
  /-- NEG a, format U16, OP 0x15 (43_multiplicative R75). -/
  | neg (a : Packed)
  /-- ADD a, b, format B16, OP 0x18 (44_additive R80). -/
  | add (a b : Packed)
  /-- SUB a, b, format B16, OP 0x19 (44_additive R81). -/
  | sub (a b : Packed)
  /-- CMPEQ a, b, format B16, OP 0x20 (45_compare R86). -/
  | cmpeq (a b : Packed)
  /-- CMPLE a, b, format B16, OP 0x21 (45_compare R87). -/
  | cmple (a b : Packed)
  /-- CMPLT a, b, format B16, OP 0x22 (45_compare R88). -/
  | cmplt (a b : Packed)
  /-- CMPGT a, b, format B16, OP 0x23 (45_compare R89). -/
  | cmpgt (a b : Packed)
  /-- CMPGE a, b, format B16, OP 0x24 (45_compare R90). -/
  | cmpge (a b : Packed)
  /-- FROMF x, format U32, OP 0x30 (46_conversion R93). -/
  | fromf (x : Word32)
  /-- TOF a, format U16, OP 0x31 (46_conversion R94). -/
  | tof (a : Packed)
  /-- FROMI n, format U32, OP 0x32 (46_conversion R95). -/
  | fromi (n : Word32)
  /-- TOI a, format U16, OP 0x33 (46_conversion R96). -/
  | toi (a : Packed)
deriving DecidableEq, Repr

end Sys2Proof
end

