-- ==== Sys2Proof/WellFormed.lean ====
section
/-! DEFINITION. Well-formedness of a command. Every operand type of `Instr` is exactly as wide as the
field of 30_encoding R32 that carries it, and R33 takes every operand value as it stands ("there is no
sign or zero extension, scaling or shifting"); an operand outside a command's own domain (SETFRAC 12,
SETRND 2, SQRT of a negative value) is a legal command that answers with a fault (R102 to R104). So no
command is ill-formed, and the check has no case to refuse. What can be ill-formed is a 64-bit WORD
(30_encoding R34, R35): Decode.lean refuses those, each by name. (log 10) -/

namespace Sys2Proof

/-- Every command is well-formed (30_encoding R33, log 10). -/
def wellFormed : Instr → Bool
  | .getcfg => true
  | .setfrac _ => true
  | .setrnd _ => true
  | .mul _ _ => true
  | .div _ _ => true
  | .sqr _ => true
  | .sqrt _ => true
  | .inv _ => true
  | .neg _ => true
  | .add _ _ => true
  | .sub _ _ => true
  | .cmpeq _ _ => true
  | .cmple _ _ => true
  | .cmplt _ _ => true
  | .cmpgt _ _ => true
  | .cmpge _ _ => true
  | .fromf _ => true
  | .tof _ => true
  | .fromi _ => true
  | .toi _ => true

end Sys2Proof
end

