-- ==== Sys2Proof/Decode.lean ====
section
/-! DEFINITION. The command word (30_encoding R30 to R35): its fields, the decoder, the encoder, and
the opcode table with its masks (R32). -/

namespace Sys2Proof

/-- `OP = c[63:56]` (30_encoding R30). -/
def fieldOp (c : Word64) : BitVec 8 := c.extractLsb' 56 8

/-- `RSV = c[55:48]` (30_encoding R30). -/
def fieldRsv (c : Word64) : BitVec 8 := c.extractLsb' 48 8

/-- `B = c[47:32]` (30_encoding R30). -/
def fieldB (c : Word64) : Packed := c.extractLsb' 32 16

/-- `A = c[31:0]` (30_encoding R30). -/
def fieldA (c : Word64) : Word32 := c.extractLsb' 0 32

/-- `A[31:16]`, zero in the formats U16 and B16 (30_encoding R32). -/
def fieldAHigh (c : Word64) : BitVec 16 := c.extractLsb' 16 16

/-- `A[15:0]`, a packed operand (30_encoding R32). -/
def fieldALow (c : Word64) : Packed := c.extractLsb' 0 16

/-- The four operand formats of 30_encoding R32. -/
inductive Format where
  | n
  | u16
  | u32
  | b16
deriving DecidableEq, Repr

/-- The must-be-zero fields of 30_encoding R32. -/
inductive ZeroField where
  | rsv
  | b
  | a
  | aHigh
deriving DecidableEq, Repr

/-- Why a word is no command: each is the one fault IllegalCommand to the host (60_exceptions R105);
the names are the model's (log 9). -/
inductive Illegal where
  /-- A reserved value of OP (30_encoding R35). -/
  | reservedOpcode (op : BitVec 8)
  /-- A must-be-zero field that is not zero (30_encoding R34); the first of them in the order of the
  format's list. -/
  | fieldNotZero (field : ZeroField)
deriving DecidableEq, Repr

/-- Format N: RSV, B and A[31:0] must be zero (30_encoding R32, R34). -/
def takeN (c : Word64) (i : Instr) : Except Illegal Instr :=
  if fieldRsv c ≠ 0 then .error (.fieldNotZero .rsv)
  else if fieldB c ≠ 0 then .error (.fieldNotZero .b)
  else if fieldA c ≠ 0 then .error (.fieldNotZero .a)
  else .ok i

/-- Format U16: RSV, B and A[31:16] must be zero; the operand is A[15:0] (30_encoding R32, R34). -/
def takeU16 (c : Word64) (i : Packed → Instr) : Except Illegal Instr :=
  if fieldRsv c ≠ 0 then .error (.fieldNotZero .rsv)
  else if fieldB c ≠ 0 then .error (.fieldNotZero .b)
  else if fieldAHigh c ≠ 0 then .error (.fieldNotZero .aHigh)
  else .ok (i (fieldALow c))

/-- Format U32: RSV and B must be zero; the operand is A[31:0] (30_encoding R32, R34). -/
def takeU32 (c : Word64) (i : Word32 → Instr) : Except Illegal Instr :=
  if fieldRsv c ≠ 0 then .error (.fieldNotZero .rsv)
  else if fieldB c ≠ 0 then .error (.fieldNotZero .b)
  else .ok (i (fieldA c))

/-- Format B16: RSV and A[31:16] must be zero; the operands are A[15:0] and B[15:0]
(30_encoding R32, R34). -/
def takeB16 (c : Word64) (i : Packed → Packed → Instr) : Except Illegal Instr :=
  if fieldRsv c ≠ 0 then .error (.fieldNotZero .rsv)
  else if fieldAHigh c ≠ 0 then .error (.fieldNotZero .aHigh)
  else .ok (i (fieldALow c) (fieldB c))

/-- The decoder, total on 64-bit words (30_encoding R34): the opcode map of R31; every other value of
OP is reserved (R35). It reads the word alone, never the state (R38). -/
def decode (c : Word64) : Except Illegal Instr :=
  match (fieldOp c).toNat with
  | 0x01 => takeN c .getcfg
  | 0x02 => takeU32 c .setfrac
  | 0x03 => takeU32 c .setrnd
  | 0x10 => takeB16 c .mul
  | 0x11 => takeB16 c .div
  | 0x12 => takeU16 c .sqr
  | 0x13 => takeU16 c .sqrt
  | 0x14 => takeU16 c .inv
  | 0x15 => takeU16 c .neg
  | 0x18 => takeB16 c .add
  | 0x19 => takeB16 c .sub
  | 0x20 => takeB16 c .cmpeq
  | 0x21 => takeB16 c .cmple
  | 0x22 => takeB16 c .cmplt
  | 0x23 => takeB16 c .cmpgt
  | 0x24 => takeB16 c .cmpge
  | 0x30 => takeU32 c .fromf
  | 0x31 => takeU16 c .tof
  | 0x32 => takeU32 c .fromi
  | 0x33 => takeU16 c .toi
  | _ => .error (.reservedOpcode (fieldOp c))

/-- The opcode of a command (30_encoding R31). -/
def opcode : Instr → BitVec 8
  | .getcfg => 0x01
  | .setfrac _ => 0x02
  | .setrnd _ => 0x03
  | .mul _ _ => 0x10
  | .div _ _ => 0x11
  | .sqr _ => 0x12
  | .sqrt _ => 0x13
  | .inv _ => 0x14
  | .neg _ => 0x15
  | .add _ _ => 0x18
  | .sub _ _ => 0x19
  | .cmpeq _ _ => 0x20
  | .cmple _ _ => 0x21
  | .cmplt _ _ => 0x22
  | .cmpgt _ _ => 0x23
  | .cmpge _ _ => 0x24
  | .fromf _ => 0x30
  | .tof _ => 0x31
  | .fromi _ => 0x32
  | .toi _ => 0x33

/-- A command word from its four fields (30_encoding R30). -/
def commandWord (op rsv : BitVec 8) (b : Packed) (a : Word32) : Word64 := op ++ rsv ++ b ++ a

/-- The word of format N (30_encoding R32). -/
def wordN (op : BitVec 8) : Word64 := commandWord op 0 0 0

/-- The word of format U16 (30_encoding R32). -/
def wordU16 (op : BitVec 8) (a : Packed) : Word64 := commandWord op 0 0 (0#16 ++ a)

/-- The word of format U32 (30_encoding R32). -/
def wordU32 (op : BitVec 8) (x : Word32) : Word64 := commandWord op 0 0 x

/-- The word of format B16 (30_encoding R32). -/
def wordB16 (op : BitVec 8) (a b : Packed) : Word64 := commandWord op 0 b (0#16 ++ a)

/-- The encoder: the one word of a command (30_encoding R30 to R32). -/
def encode : Instr → Word64
  | .getcfg => wordN 0x01
  | .setfrac n => wordU32 0x02 n
  | .setrnd m => wordU32 0x03 m
  | .mul a b => wordB16 0x10 a b
  | .div a b => wordB16 0x11 a b
  | .sqr a => wordU16 0x12 a
  | .sqrt a => wordU16 0x13 a
  | .inv a => wordU16 0x14 a
  | .neg a => wordU16 0x15 a
  | .add a b => wordB16 0x18 a b
  | .sub a b => wordB16 0x19 a b
  | .cmpeq a b => wordB16 0x20 a b
  | .cmple a b => wordB16 0x21 a b
  | .cmplt a b => wordB16 0x22 a b
  | .cmpgt a b => wordB16 0x23 a b
  | .cmpge a b => wordB16 0x24 a b
  | .fromf x => wordU32 0x30 x
  | .tof a => wordU16 0x31 a
  | .fromi n => wordU32 0x32 n
  | .toi a => wordU16 0x33 a

/-- The mask of a format (30_encoding R32): the bits of the word that its row fixes. -/
def formatMask : Format → Word64
  | .n => 0xFFFFFFFFFFFFFFFF
  | .u16 => 0xFFFFFFFFFFFF0000
  | .u32 => 0xFFFFFFFF00000000
  | .b16 => 0xFFFF0000FFFF0000

/-- A row of the opcode table (30_encoding R31). -/
structure Row where
  op : BitVec 8
  format : Format
deriving DecidableEq, Repr

/-- The match of a row, `OP << 56` (30_encoding R32). -/
def rowMatch (r : Row) : Word64 := commandWord r.op 0 0 0

/-- The opcode table (30_encoding R31), in its order. -/
def opcodeTable : List Row :=
  [⟨0x01, .n⟩, ⟨0x02, .u32⟩, ⟨0x03, .u32⟩,
   ⟨0x10, .b16⟩, ⟨0x11, .b16⟩, ⟨0x12, .u16⟩, ⟨0x13, .u16⟩, ⟨0x14, .u16⟩, ⟨0x15, .u16⟩,
   ⟨0x18, .b16⟩, ⟨0x19, .b16⟩,
   ⟨0x20, .b16⟩, ⟨0x21, .b16⟩, ⟨0x22, .b16⟩, ⟨0x23, .b16⟩, ⟨0x24, .b16⟩,
   ⟨0x30, .u32⟩, ⟨0x31, .u16⟩, ⟨0x32, .u32⟩, ⟨0x33, .u16⟩]

/-- "A word `c` is the command of a row exactly when `c AND mask = match`" (30_encoding R32). -/
def rowAdmits (r : Row) (c : Word64) : Bool := c &&& formatMask r.format == rowMatch r

/-- The table row a command belongs to (30_encoding R31). -/
def rowOf : Instr → Row
  | .getcfg => ⟨0x01, .n⟩
  | .setfrac _ => ⟨0x02, .u32⟩
  | .setrnd _ => ⟨0x03, .u32⟩
  | .mul _ _ => ⟨0x10, .b16⟩
  | .div _ _ => ⟨0x11, .b16⟩
  | .sqr _ => ⟨0x12, .u16⟩
  | .sqrt _ => ⟨0x13, .u16⟩
  | .inv _ => ⟨0x14, .u16⟩
  | .neg _ => ⟨0x15, .u16⟩
  | .add _ _ => ⟨0x18, .b16⟩
  | .sub _ _ => ⟨0x19, .b16⟩
  | .cmpeq _ _ => ⟨0x20, .b16⟩
  | .cmple _ _ => ⟨0x21, .b16⟩
  | .cmplt _ _ => ⟨0x22, .b16⟩
  | .cmpgt _ _ => ⟨0x23, .b16⟩
  | .cmpge _ _ => ⟨0x24, .b16⟩
  | .fromf _ => ⟨0x30, .u32⟩
  | .tof _ => ⟨0x31, .u16⟩
  | .fromi _ => ⟨0x32, .u32⟩
  | .toi _ => ⟨0x33, .u16⟩

/-- The 64-bit command word of a table row's bits: the low `nbits` bits of `w`, the rest zero
(log 9). The word is the unit of transfer, so it has no byte order to lay out (20_memory R20). -/
def tableWord (nbits w : Nat) : Word64 := BitVec.ofNat 64 (w % 2 ^ nbits)

/-- The command the decoder reads from a table row's bits. -/
def decodeTableWord (nbits w : Nat) : Option Instr := (decode (tableWord nbits w)).toOption

end Sys2Proof
end

