-- ==== Sys2Proof/Machine/Ops.lean ====
section
/-! DEFINITION. The named operations over the state: answering a command (30_encoding R37, R42),
raising a fault (60_exceptions R100), writing CFG with the rebuild that belongs to it (40_config R48),
accepting an input, and reset (70 R120). -/

namespace Sys2Proof.Machine

open Sys2Proof.Config

/-- Present the response to the command at the head of the port, which is thereby done
(30_encoding R37, R42; log 1, log 2). -/
def answer (r : Response) (s : State) : State :=
  { s with inputs := s.inputs.tail, responses := s.responses ++ [r] }

/-- `respond R(v)`: "`R = v`, `FAULT = 0`, `NOTICE = 0`" (30_encoding R37). -/
def respond (v : Word32) (s : State) : State := answer (.result v false) s

/-- `notice` and then `respond R(v)` (60_exceptions R108). -/
def respondNotice (v : Word32) (s : State) : State := answer (.result v true) s

/-- `raise X`: the whole of taking a fault (60_exceptions R100, R110): "no state is written", the
response carries the code, "the unit is then ready for the next command". There is no return from it
(R111). -/
def raiseFault (x : CommandFault) (s : State) : State := answer (.fault x) s

/-- Write CFG and run `Rebuild(CFG.f, CFG.rmode)`, one atomic step (40_config R46 to R48). -/
def reconfigure (c : Cfg) (s : State) : State := { s with cfg := c, lut := rebuild c.f c.rmode }

/-- The command ports, `NPORTS` of them (00_scope R6): what the host presents at each. -/
def commandPorts (s : State) : Vector (List Input) NPORTS := #v[s.inputs]

/-- The input the unit accepts next, at its one command port: one at a time, in the order presented (20_memory R25,
30_encoding R42). -/
def accept (s : State) : Option Input := (commandPorts s)[0].head?

/-- Nothing is pending: "Nothing happens in the unit except in answer to a command"
(60_exceptions R109; log 3). -/
def idle (s : State) : State := s

/-- Reset (70 R120): CFG and LUT take their reset values; the reset input is used up and the host's
side of the port stays (log 4). -/
def resetUnit (s : State) : State :=
  { s with cfg := State.reset.cfg, lut := State.reset.lut, inputs := s.inputs.tail }

/-- The answer to a word that is no command, whatever the reason: IllegalCommand
(60_exceptions R105, R107). -/
def rejectWord (_why : Illegal) (s : State) : State := raiseFault .illegalCommand s

/-- Present a command word as the next input. -/
def present (c : Word64) (s : State) : State := { s with inputs := .command c :: s.inputs }

end Sys2Proof.Machine
end

