-- ==== Sys2Proof/Machine/Multiplicative.lean ====
section
/-! DEFINITION. MUL, DIV, SQR, SQRT, INV and NEG (43_multiplicative R70 to R77). None reads the lookup
table (41_lut R59); only SQRT reads CFG, its rmode. -/

namespace Sys2Proof.Machine

open Sys2Proof.Config

/-- The pattern MUL answers with (43_multiplicative R70). -/
def mulPacked (a b : Packed) : Packed :=
  match unpack a, unpack b with
  | .nar, _ => patternNaR
  | _, .nar => patternNaR
  | .zero, _ => patternZero
  | _, .zero => patternZero
  | .finite sa Ka, .finite sb Kb => pack (sa ^^ sb) (Ka + Kb)

/-- The pattern DIV answers with (43_multiplicative R71). -/
def divPacked (a b : Packed) : Packed :=
  match unpack a, unpack b with
  | .nar, _ => patternNaR
  | _, .nar => patternNaR
  | _, .zero => patternNaR
  | .zero, _ => patternZero
  | .finite sa Ka, .finite sb Kb => pack (sa ^^ sb) (Ka - Kb)

/-- The pattern SQR answers with (43_multiplicative R72). -/
def sqrPacked (a : Packed) : Packed :=
  match unpack a with
  | .nar => patternNaR
  | .zero => patternZero
  | .finite _ Ka => pack false (2 * Ka)

/-- The pattern SQRT answers with, none where it raises NegativeRadicand (43_multiplicative R73):
"the NaR and Zero tests come before the sign test" (60_exceptions R107). -/
def sqrtPacked (rmode : RMode) (a : Packed) : Option Packed :=
  match unpack a with
  | .nar => some patternNaR
  | .zero => some patternZero
  | .finite true _ => none
  | .finite false Ka => some (encodeLog rmode false Ka)

/-- The pattern INV answers with (43_multiplicative R74). -/
def invPacked (a : Packed) : Packed :=
  match unpack a with
  | .nar => patternNaR
  | .zero => patternNaR
  | .finite sa Ka => pack sa (-Ka)

/-- The pattern NEG answers with (43_multiplicative R75): the two sentinels are tested first. -/
def negPacked (a : Packed) : Packed :=
  if a = patternZero ∨ a = patternNaR then a else a ^^^ 0x8000

/-- MUL (43_multiplicative R70). -/
def execMul (a b : Packed) (s : State) : Host.Outcome State Fault Refusal :=
  .next (respond (packedResult (mulPacked a b)) s)

/-- DIV (43_multiplicative R71). -/
def execDiv (a b : Packed) (s : State) : Host.Outcome State Fault Refusal :=
  .next (respond (packedResult (divPacked a b)) s)

/-- SQR (43_multiplicative R72). -/
def execSqr (a : Packed) (s : State) : Host.Outcome State Fault Refusal :=
  .next (respond (packedResult (sqrPacked a)) s)

/-- SQRT (43_multiplicative R73). -/
def execSqrt (a : Packed) (s : State) : Host.Outcome State Fault Refusal :=
  match sqrtPacked s.cfg.rmode a with
  | none => .next (raiseFault .negativeRadicand s)
  | some r => .next (respond (packedResult r) s)

/-- INV (43_multiplicative R74). -/
def execInv (a : Packed) (s : State) : Host.Outcome State Fault Refusal :=
  .next (respond (packedResult (invPacked a)) s)

/-- NEG (43_multiplicative R75). -/
def execNeg (a : Packed) (s : State) : Host.Outcome State Fault Refusal :=
  .next (respond (packedResult (negPacked a)) s)

end Sys2Proof.Machine
end

