-- ==== Sys2Proof/Machine/Additive.lean ====
section
/-! DEFINITION. ADD and SUB (44_additive R80, R81): the only commands that reconstruct linear values
and round the result back through the table. -/

namespace Sys2Proof.Machine

open Sys2Proof.Config

/-- The exact integer `S` of 44_additive R80 for the operand of larger magnitude (sg, Kg) and the
other (ss, Ks): the two significands aligned at the smaller octave, added or subtracted. With the
table the unit holds (10_state R13) and Kg >= Ks the difference is not negative ("exact, S >= 0
because Kg >= Ks"); the truncation of the Nat difference is reached by no such state (log 11). -/
def alignedSum (c : Cfg) (t : Lut) (sg : Bool) (Kg : Int) (ss : Bool) (Ks : Int) : Nat :=
  let Ng := exp2Lookup t (gridIndex c Kg)
  let Ns := exp2Lookup t (gridIndex c Ks)
  let sh := (octave c Kg - octave c Ks).toNat
  if sg = ss then (Ng <<< sh) + Ns else (Ng <<< sh) - Ns

/-- The sum of two Finite operands, the first of larger or equal magnitude (44_additive R80). -/
def addOrdered (c : Cfg) (t : Lut) (sg : Bool) (Kg : Int) (ss : Bool) (Ks : Int) : Packed :=
  let S := alignedSum c t sg Kg ss Ks
  if S = 0 then patternZero
  else
    let (p, sig) := normalise S
    encodeLin c t sg (octave c Ks + p - W) sig

/-- The pattern ADD answers with (44_additive R80): "on equal K, a is g". -/
def addPacked (c : Cfg) (t : Lut) (a b : Packed) : Packed :=
  match unpack a, unpack b with
  | .nar, _ => patternNaR
  | _, .nar => patternNaR
  | .zero, _ => b
  | _, .zero => a
  | .finite sa Ka, .finite sb Kb =>
    if Ka ≥ Kb then addOrdered c t sa Ka sb Kb else addOrdered c t sb Kb sa Ka

/-- The pattern SUB answers with: `ADD(a, NEG(b))` (44_additive R81). -/
def subPacked (c : Cfg) (t : Lut) (a b : Packed) : Packed := addPacked c t a (negPacked b)

/-- ADD (44_additive R80). -/
def execAdd (a b : Packed) (s : State) : Host.Outcome State Fault Refusal :=
  .next (respond (packedResult (addPacked s.cfg s.lut a b)) s)

/-- SUB (44_additive R81). -/
def execSub (a b : Packed) (s : State) : Host.Outcome State Fault Refusal :=
  .next (respond (packedResult (subPacked s.cfg s.lut a b)) s)

end Sys2Proof.Machine
end

