-- ==== Sys2Proof/Machine/Compare.lean ====
section
/-! DEFINITION. The five comparisons (45_compare R85 to R91). They read neither CFG nor the table. -/

namespace Sys2Proof.Machine

/-- `Key(x)`, for a pattern other than NaR (45_compare R85). -/
def key (x : Packed) : Int :=
  if signOf x then -((magnitudeOf x).toNat : Int) else (magnitudeOf x).toNat

/-- A comparison of two patterns by their keys; false when an operand is NaR (45_compare R86 to R90). -/
def compareKeys (rel : Int → Int → Bool) (a b : Packed) : Bool :=
  if a = patternNaR ∨ b = patternNaR then false else rel (key a) (key b)

/-- CMPEQ (45_compare R86). -/
def execCmpeq (a b : Packed) (s : State) : Host.Outcome State Fault Refusal :=
  .next (respond (truthResult (compareKeys (fun x y => decide (x = y)) a b)) s)

/-- CMPLE (45_compare R87). -/
def execCmple (a b : Packed) (s : State) : Host.Outcome State Fault Refusal :=
  .next (respond (truthResult (compareKeys (fun x y => decide (x ≤ y)) a b)) s)

/-- CMPLT (45_compare R88). -/
def execCmplt (a b : Packed) (s : State) : Host.Outcome State Fault Refusal :=
  .next (respond (truthResult (compareKeys (fun x y => decide (x < y)) a b)) s)

/-- CMPGT (45_compare R89). -/
def execCmpgt (a b : Packed) (s : State) : Host.Outcome State Fault Refusal :=
  .next (respond (truthResult (compareKeys (fun x y => decide (x > y)) a b)) s)

/-- CMPGE (45_compare R90). -/
def execCmpge (a b : Packed) (s : State) : Host.Outcome State Fault Refusal :=
  .next (respond (truthResult (compareKeys (fun x y => decide (x ≥ y)) a b)) s)

end Sys2Proof.Machine
end

