-- ==== Sys2Proof/Machine/ConfigCommands.lean ====
section
/-! DEFINITION. GETCFG, SETFRAC and SETRND (40_config R45 to R49), "the only commands that touch
state". -/

namespace Sys2Proof.Machine

open Sys2Proof.Config

/-- The number of a rounding mode: lin = 0, log = 1 (10_state R11, D10). -/
def rmodeBit : RMode → BitVec 1
  | .lin => 0
  | .log => 1

/-- The GETCFG result: rmode in bit 8, I in bits 7:4, f in bits 3:0, zero above (40_config R45,
10_state R11). -/
def cfgWord (c : Cfg) : Word32 := 0#23 ++ rmodeBit c.rmode ++ c.intBits ++ c.f

/-- The fraction width SETFRAC's operand names, if it is one of 7 to 11 (40_config R46). -/
def fracOperand (n : Word32) : Option (BitVec 4) :=
  if operandUnsigned n < 7 ∨ operandUnsigned n > 11 then none
  else some (BitVec.ofNat 4 (operandUnsigned n))

/-- The rounding mode SETRND's operand names, if it is 0 or 1 (40_config R47). -/
def rmodeOperand (m : Word32) : Option RMode :=
  if operandUnsigned m > 1 then none
  else if operandUnsigned m = 0 then some .lin
  else some .log

/-- GETCFG (40_config R45). -/
def execGetcfg (s : State) : Host.Outcome State Fault Refusal := .next (respond (cfgWord s.cfg) s)

/-- SETFRAC (40_config R46): InvalidFormat, or the new f, the rebuild and the notice. The value
already held is no special case (R49). -/
def execSetfrac (n : Word32) (s : State) : Host.Outcome State Fault Refusal :=
  match fracOperand n with
  | none => .next (raiseFault .invalidFormat s)
  | some f => .next (respondNotice 0 (reconfigure { s.cfg with f := f } s))

/-- SETRND (40_config R47): InvalidRoundingMode, or the new mode and the rebuild; no notice. -/
def execSetrnd (m : Word32) (s : State) : Host.Outcome State Fault Refusal :=
  match rmodeOperand m with
  | none => .next (raiseFault .invalidRoundingMode s)
  | some r => .next (respond 0 (reconfigure { s.cfg with rmode := r } s))

end Sys2Proof.Machine
end

