-- ==== Sys2Proof/Machine/Conversion.lean ====
section
/-! DEFINITION. FROMF, TOF, FROMI and TOI: the linear side of the codec (46_conversion R92 to R97). -/

namespace Sys2Proof.Machine

open Sys2Proof.Config

/-- The pattern FROMF answers with (46_conversion R93). -/
def fromFloat (c : Cfg) (t : Lut) (x : Word32) : Packed :=
  match readFloat x with
  | .notReal => patternNaR
  | .zero => patternZero
  | .number s e sig => encodeLin c t s e sig

/-- The quiet NaN that TOF gives for NaR (46_conversion R94, D17). -/
def floatNaN : Word32 := 0x7FC00000

/-- A normal binary32 result from `m24` and `e` after the carry of the rounding, or the signed infinity
(46_conversion R94). -/
def floatNormal (s : Bool) (e : Int) (m24 : Nat) : Word32 :=
  if e > LINFLOAT.bias then floatWord s LINFLOAT.expMax 0
  else floatWord s (e + LINFLOAT.bias).toNat (m24 - 2 ^ LINFLOAT.fracBits)

/-- The LINFLOAT word of `(-1)^s * N * 2^q` with `2^32 <= N < 2^33` (46_conversion R94). A subnormal
result m fills the 31 bits below the sign: "m = 2^23 is the least normal number, exponent field 1". -/
def floatOfLinear (s : Bool) (N : Nat) (q : Int) : Word32 :=
  let e := q + W
  if e ≥ 1 - LINFLOAT.bias then
    let m24 := rneShift N (W - LINFLOAT.fracBits : Nat)
    if m24 = 2 ^ (LINFLOAT.fracBits + 1) then floatNormal s (e + 1) (2 ^ LINFLOAT.fracBits)
    else floatNormal s e m24
  else
    let m := rneShift N (-(LINFLOAT.bias - 1 + LINFLOAT.fracBits : Nat) - q)
    floatWord s (m / 2 ^ LINFLOAT.fracBits) m

/-- The word TOF answers with (46_conversion R94). -/
def toFloat (c : Cfg) (t : Lut) (a : Packed) : Word32 :=
  match unpack a with
  | .zero => 0
  | .nar => floatNaN
  | .finite s K => floatOfLinear s (linear c t K).1 (linear c t K).2

/-- The pattern FROMI answers with (46_conversion R95): the exact magnitude, normalised, through the
same encoder as FROMF. -/
def fromInt (c : Cfg) (t : Lut) (n : Word32) : Packed :=
  if n = 0 then patternZero
  else
    let p := Nat.log2 (intMagnitude n)
    encodeLin c t (intSign n) p (intMagnitude n <<< (W - p))

/-- The word that TOI gives for NaR (46_conversion R96, D21; log 12). -/
def intNaR : Word32 := 0x80000000

/-- Saturation to the range of the format LININT (46_conversion R96). -/
def clampInt (v : Int) : Int :=
  if v > LININT.bound - 1 then LININT.bound - 1 else if v < -LININT.bound then -LININT.bound else v

/-- The integer TOI answers with for `(-1)^s * N * 2^q`: the nearest to the magnitude, ties to even,
then the sign, then the saturation (46_conversion R96). -/
def intOfLinear (s : Bool) (N : Nat) (q : Int) : Int :=
  let r : Int := rneShift N (-q)
  clampInt (if s then -r else r)

/-- The word TOI answers with (46_conversion R96). -/
def toInt (c : Cfg) (t : Lut) (a : Packed) : Word32 :=
  match unpack a with
  | .zero => 0
  | .nar => intNaR
  | .finite s K => BitVec.ofInt 32 (intOfLinear s (linear c t K).1 (linear c t K).2)

/-- FROMF (46_conversion R93). -/
def execFromf (x : Word32) (s : State) : Host.Outcome State Fault Refusal :=
  .next (respond (packedResult (fromFloat s.cfg s.lut x)) s)

/-- TOF (46_conversion R94). -/
def execTof (a : Packed) (s : State) : Host.Outcome State Fault Refusal :=
  .next (respond (toFloat s.cfg s.lut a) s)

/-- FROMI (46_conversion R95). -/
def execFromi (n : Word32) (s : State) : Host.Outcome State Fault Refusal :=
  .next (respond (packedResult (fromInt s.cfg s.lut n)) s)

/-- TOI (46_conversion R96). -/
def execToi (a : Packed) (s : State) : Host.Outcome State Fault Refusal :=
  .next (respond (toInt s.cfg s.lut a) s)

end Sys2Proof.Machine
end

