-- ==== Sys2Proof/Machine/Dispatch.lean ====
section
/-! DEFINITION. The meaning of each command, one arm per constructor of Instr (30_encoding R31). -/

namespace Sys2Proof.Machine

def exec (i : Instr) (s : State) : Host.Outcome State Fault Refusal :=
  match i with
  | .getcfg => Sys2Proof.Machine.execGetcfg s
  | .setfrac n => Sys2Proof.Machine.execSetfrac n s
  | .setrnd m => Sys2Proof.Machine.execSetrnd m s
  | .mul a b => Sys2Proof.Machine.execMul a b s
  | .div a b => Sys2Proof.Machine.execDiv a b s
  | .sqr a => Sys2Proof.Machine.execSqr a s
  | .sqrt a => Sys2Proof.Machine.execSqrt a s
  | .inv a => Sys2Proof.Machine.execInv a s
  | .neg a => Sys2Proof.Machine.execNeg a s
  | .add a b => Sys2Proof.Machine.execAdd a b s
  | .sub a b => Sys2Proof.Machine.execSub a b s
  | .cmpeq a b => Sys2Proof.Machine.execCmpeq a b s
  | .cmple a b => Sys2Proof.Machine.execCmple a b s
  | .cmplt a b => Sys2Proof.Machine.execCmplt a b s
  | .cmpgt a b => Sys2Proof.Machine.execCmpgt a b s
  | .cmpge a b => Sys2Proof.Machine.execCmpge a b s
  | .fromf x => Sys2Proof.Machine.execFromf x s
  | .tof a => Sys2Proof.Machine.execTof a s
  | .fromi n => Sys2Proof.Machine.execFromi n s
  | .toi a => Sys2Proof.Machine.execToi a s

end Sys2Proof.Machine
end

