-- ==== Sys2Proof/Machine/Step.lean ====
section
/-! DEFINITION. One step: one whole transaction of the command port (30_encoding R42, 20_memory R25). -/

namespace Sys2Proof.Machine

/-- One step: accept the next input and carry it out. A command word is decoded from the word alone
(30_encoding R38) and answered by its command, or by IllegalCommand if it is none (60_exceptions
R107); a reset restores the reset values (70 R120); with nothing presented, nothing happens (R109). -/
def step (s : State) : Host.Outcome State Fault Refusal :=
  match accept s with
  | none => .next (idle s)
  | some .reset => .next (resetUnit s)
  | some (.command c) =>
    match decode c with
    | .error why => .next (rejectWord why s)
    | .ok i => exec i s

/-- `s` with the command word of a table row's bits presented as the next input, so that the very next
step accepts and runs it (log 1, log 9). -/
def State.withFetchWord (s : State) (nbits w : Nat) : State := present (tableWord nbits w) s

end Sys2Proof.Machine
end

