-- ==== Sys2Proof/Machine/Flags.lean ====
section
/-! DEFINITION. The unit keeps no flag or condition code (10_state R18). What stands in their place
are two fields of each response: FAULT and NOTICE (30_encoding R37, 60_exceptions R101, R108). -/

namespace Sys2Proof.Machine

/-- The fault codes 1 to 4 (60_exceptions R101). -/
def faultCode : CommandFault → BitVec 3
  | .invalidFormat => 1
  | .invalidRoundingMode => 2
  | .negativeRadicand => 3
  | .illegalCommand => 4

/-- `R`, r[31:0]: the result, zero when FAULT is not 0 (30_encoding R37). -/
def responseR : Response → Word32
  | .result r _ => r
  | .fault _ => 0

/-- `FAULT`, r[34:32] (30_encoding R37). -/
def responseFault : Response → BitVec 3
  | .result _ _ => 0
  | .fault x => faultCode x

/-- `NOTICE`, r[35] (30_encoding R37, 60_exceptions R108). -/
def responseNotice : Response → Bool
  | .result _ notice => notice
  | .fault _ => false

/-- The response word: 28 zeros, NOTICE, FAULT, R (30_encoding R37). -/
def responseWord (r : Response) : Word64 :=
  0#28 ++ BitVec.ofBool (responseNotice r) ++ responseFault r ++ responseR r

end Sys2Proof.Machine
end

