-- ==== Sys2Proof/Machine/Assembler.lean ====
section
/-! DEFINITION. The host's text: assembler lines (30_encoding R39), constant symbols and the
pseudo-instruction BITS (R40), the printed form of a value (R41), and a program as "a list of commands
the host issues in order, with the host carrying values from one response to the next command"
(10_state R16). "The names are the assembler's and the host's: the unit sees only the patterns" (R39):
nothing here is state of the unit and `step` uses none of it. (log 16) -/

namespace Sys2Proof.Machine

/-- A token of a line: a word, or a comma by itself. -/
abbrev Token := List Char

/-- What the host has bound by `-> name` (30_encoding R39): the results R, the latest first. -/
abbrev Names := List (Token × Word32)

/-- The line without its comment: "a `;` starts a comment" (30_encoding R39). -/
def dropComment (line : List Char) : List Char := line.takeWhile (· ≠ ';')

/-- The word read so far (its characters reversed), if there is one. -/
def endWord : List Char → List Token
  | [] => []
  | c :: cs => [(c :: cs).reverse]

/-- The tokens of a line: words separated by white space and commas (30_encoding R39). -/
def tokens : List Char → List Char → List Token
  | word, [] => endWord word
  | word, c :: cs =>
    if c = ' ' ∨ c = '\t' then endWord word ++ tokens [] cs
    else if c = ',' then endWord word ++ [','] :: tokens [] cs
    else tokens (c :: word) cs

/-- The value of a decimal digit. -/
def decimalDigit (c : Char) : Option Nat :=
  if '0' ≤ c ∧ c ≤ '9' then some (c.toNat - 48) else none

/-- The value of a hexadecimal digit, of either case (log 16). -/
def hexDigit (c : Char) : Option Nat :=
  if '0' ≤ c ∧ c ≤ '9' then some (c.toNat - 48)
  else if 'A' ≤ c ∧ c ≤ 'F' then some (c.toNat - 55)
  else if 'a' ≤ c ∧ c ≤ 'f' then some (c.toNat - 87)
  else none

/-- A numeral in a base, most significant digit first, after a value already read. -/
def numeral (base : Nat) (digit : Char → Option Nat) : Nat → List Char → Option Nat
  | n, [] => some n
  | n, c :: cs =>
    match digit c with
    | none => none
    | some d => numeral base digit (base * n + d) cs

/-- A hexadecimal word of exactly `width` digits, written with `0x` (30_encoding R39). -/
def hexNumeral (width : Nat) : Token → Option Nat
  | '0' :: 'x' :: cs => if cs.length = width then numeral 16 hexDigit 0 cs else none
  | _ => none

/-- A decimal integer, with an optional minus sign (30_encoding R39). -/
def decimalInt : Token → Option Int
  | [] => none
  | ['-'] => none
  | '-' :: cs => (numeral 10 decimalDigit 0 cs).map fun n => -(n : Int)
  | cs => (numeral 10 decimalDigit 0 cs).map fun n => (n : Int)

/-- The constant symbols of 30_encoding R40. -/
def constantSymbol (t : Token) : Option Packed :=
  if t = ['Z', 'E', 'R', 'O'] then some patternZero
  else if t = ['N', 'A', 'R'] then some patternNaR
  else if t = ['F', 'M', 'I', 'N'] then some patternMin
  else if t = ['F', 'M', 'A', 'X'] then some patternMax
  else if t = ['O', 'N', 'E'] then some patternOne
  else none

/-- A packed operand: a 4-digit hexadecimal pattern, a constant symbol, or a name bound by an earlier
line, of whose result R[15:0] is the pattern (30_encoding R37, R39). DESIGN CHOICE (log 16): of two
readings of one token the earlier in this list is taken, and of two bindings of a name the latest. -/
def packedOperand (names : Names) (t : Token) : Option Packed :=
  match hexNumeral 4 t with
  | some n => some (BitVec.ofNat 16 n)
  | none =>
    match constantSymbol t with
    | some x => some x
    | none => (names.lookup t).map fun r => r.setWidth 16

/-- A U32 operand written as an 8-digit hexadecimal word (30_encoding R39). -/
def wordOperand (t : Token) : Option Word32 := (hexNumeral 8 t).map (BitVec.ofNat 32)

/-- SETFRAC's operand: a hexadecimal word or a decimal integer (30_encoding R39). -/
def fracToken (t : Token) : Option Word32 :=
  match wordOperand t with
  | some x => some x
  | none => (decimalInt t).bind fun n => if 0 ≤ n ∧ n < 2 ^ 32 then some (BitVec.ofInt 32 n) else none

/-- FROMI's operand: a hexadecimal word or a decimal integer (30_encoding R39). -/
def intToken (t : Token) : Option Word32 :=
  match wordOperand t with
  | some x => some x
  | none =>
    (decimalInt t).bind fun n => if -2 ^ 31 ≤ n ∧ n < 2 ^ 31 then some (BitVec.ofInt 32 n) else none

/-- SETRND's operand: a hexadecimal word or one of the words `lin` and `log`; DESIGN CHOICE (log 16):
also a decimal integer, as the lines `SETRND 1` and `SETRND 2` of the spec are written (40_config R47,
30_encoding R39). -/
def rmodeToken (t : Token) : Option Word32 :=
  if t = ['l', 'i', 'n'] then some 0
  else if t = ['l', 'o', 'g'] then some 1
  else fracToken t

/-- The operand tokens of a line, which commas separate (30_encoding R39). -/
def commaList : List Token → Option (List Token)
  | [] => some []
  | [t] => if t = [','] then none else some [t]
  | t :: c :: ts => if t ≠ [','] ∧ c = [','] ∧ ts ≠ [] then (commaList ts).map (t :: ·) else none

/-- The tokens before `->`, and the name after it if there is one (30_encoding R39). DESIGN CHOICE
(log 16): R39 gives a name no lexical form, and the model takes any one token as the name, even a comma,
`->` or a numeral. -/
def splitBinding : List Token → Option (List Token × Option Token)
  | [] => some ([], none)
  | t :: ts =>
    if t = ['-', '>'] then
      match ts with
      | [name] => some ([], some name)
      | _ => none
    else (splitBinding ts).map fun p => (t :: p.1, p.2)

/-- The commands of format B16 by mnemonic (30_encoding R31). -/
def binaryMnemonic (m : Token) : Option (Packed → Packed → Instr) :=
  if m = ['M', 'U', 'L'] then some .mul
  else if m = ['D', 'I', 'V'] then some .div
  else if m = ['A', 'D', 'D'] then some .add
  else if m = ['S', 'U', 'B'] then some .sub
  else if m = ['C', 'M', 'P', 'E', 'Q'] then some .cmpeq
  else if m = ['C', 'M', 'P', 'L', 'E'] then some .cmple
  else if m = ['C', 'M', 'P', 'L', 'T'] then some .cmplt
  else if m = ['C', 'M', 'P', 'G', 'T'] then some .cmpgt
  else if m = ['C', 'M', 'P', 'G', 'E'] then some .cmpge
  else none

/-- The commands of format U16 by mnemonic (30_encoding R31). -/
def unaryMnemonic (m : Token) : Option (Packed → Instr) :=
  if m = ['S', 'Q', 'R'] then some .sqr
  else if m = ['S', 'Q', 'R', 'T'] then some .sqrt
  else if m = ['I', 'N', 'V'] then some .inv
  else if m = ['N', 'E', 'G'] then some .neg
  else if m = ['T', 'O', 'F'] then some .tof
  else if m = ['T', 'O', 'I'] then some .toi
  else none

/-- The commands of format U32 by mnemonic, each with the reading of its operand (30_encoding R31,
R39). -/
def wordMnemonic (m : Token) : Option (Token → Option Instr) :=
  if m = ['S', 'E', 'T', 'F', 'R', 'A', 'C'] then some fun t => (fracToken t).map .setfrac
  else if m = ['S', 'E', 'T', 'R', 'N', 'D'] then some fun t => (rmodeToken t).map .setrnd
  else if m = ['F', 'R', 'O', 'M', 'F'] then some fun t => (wordOperand t).map .fromf
  else if m = ['F', 'R', 'O', 'M', 'I'] then some fun t => (intToken t).map .fromi
  else none

/-- The command of a mnemonic and its operands (30_encoding R31, R39). -/
def assembleCommand (names : Names) (m : Token) (operands : List Token) : Option Instr :=
  match operands with
  | [] => if m = ['G', 'E', 'T', 'C', 'F', 'G'] then some .getcfg else none
  | [t] =>
    match unaryMnemonic m with
    | some build => (packedOperand names t).map build
    | none =>
      match wordMnemonic m with
      | some build => build t
      | none => none
  | [t, u] =>
    match binaryMnemonic m with
    | some build =>
      match packedOperand names t, packedOperand names u with
      | some a, some b => some (build a b)
      | _, _ => none
    | none => none
  | _ => none

/-- What a line stands for: nothing, a command, or the pseudo-instruction BITS with the pattern it
gives (30_encoding R39, R40), the last two with the name the result is bound to. -/
inductive Line where
  | blank
  | command (i : Instr) (bound : Option Token)
  | bits (x : Packed) (bound : Option Token)
deriving DecidableEq, Repr

/-- An assembler line (30_encoding R39, R40); none where it is not of the form R39 gives. -/
def assembleLine (names : Names) (line : List Char) : Option Line :=
  match tokens [] (dropComment line) with
  | [] => some .blank
  | m :: rest =>
    match splitBinding rest with
    | none => none
    | some (body, bound) =>
      match commaList body with
      | none => none
      | some operands =>
        if m = ['B', 'I', 'T', 'S'] then
          match operands with
          | [t] => (packedOperand names t).map fun x => .bits x bound
          | _ => none
        else (assembleCommand names m operands).map fun i => .command i bound

/-- Bind a result to a name, if the line gives one (30_encoding R39). -/
def bindName (names : Names) (bound : Option Token) (r : Word32) : Names :=
  match bound with
  | none => names
  | some name => (name, r) :: names

/-- The names after a response: R of a faulted command carries no information (30_encoding R37), so a
fault binds nothing (log 16). -/
def bindResponse (names : Names) (bound : Option Token) : Option Response → Names
  | some (.result r _) => bindName names bound r
  | _ => names

/-- The host's issue of one line: it assembles it, presents the command word and binds the result. -/
def issueLine (s : State) (names : Names) (line : List Char) : Option (State × Names) :=
  match assembleLine names line with
  | none => none
  | some .blank => some (s, names)
  | some (.bits x bound) => some (s, bindName names bound (x.setWidth 32))
  | some (.command i bound) =>
    match step (present (encode i) s) with
    | .next t => some (t, bindResponse names bound t.responses.getLast?)
    | _ => none

/-- A program: the host issues its lines in order (10_state R16). -/
def issueProgram (s : State) (names : Names) : List (List Char) → Option (State × Names)
  | [] => some (s, names)
  | line :: rest =>
    match issueLine s names line with
    | none => none
    | some (t, names') => issueProgram t names' rest

/-- The `width` low binary digits of a number, most significant first. -/
def binaryDigits : Nat → Nat → List Char
  | 0, _ => []
  | width + 1, n => (if n.testBit width then '1' else '0') :: binaryDigits width n

/-- The textual form of a value (30_encoding R41): the sign bit, the I biased-integer bits, the f
fraction bits, separated by single spaces; the widths follow the current CFG.f. -/
def printedValue (c : Cfg) (x : Packed) : List Char :=
  (if signOf x then '1' else '0') :: ' '
    :: (binaryDigits c.intBits.toNat (biasedOf c x) ++ ' ' :: binaryDigits c.f.toNat (fractionOf c x))

end Sys2Proof.Machine
end

