-- ==== Sys2Proof/Safety.lean ====
section
/-! DEFINITION. What a good state is and what a run may answer, in the terms the statements use. -/

namespace Sys2Proof.Machine

/-- The legal values of CFG.f: 7 to 11 (10_state R11). -/
abbrev legalFrac (f : BitVec 4) : Prop := 7 ≤ f.toNat ∧ f.toNat ≤ 11

/-- The invariant of 10_state R11 and R13: CFG.f is legal and `LUT = Rebuild(CFG.f, CFG.rmode)`. -/
abbrev Inv (s : State) : Prop := legalFrac s.cfg.f ∧ s.lut = rebuild s.cfg.f s.cfg.rmode

/-- A Finite pattern: "every pattern other than 0x0000 and 0x8000" (00_scope section 6). -/
abbrev isFinite (x : Packed) : Prop := x ≠ 0x0000 ∧ x ≠ 0x8000

/-- A value command: every command other than SETFRAC and SETRND (10_state R10). -/
def isValueCommand : Instr → Bool
  | .setfrac _ => false
  | .setrnd _ => false
  | .getcfg => true
  | .mul _ _ => true
  | .div _ _ => true
  | .sqr _ => true
  | .sqrt _ => true
  | .inv _ => true
  | .neg _ => true
  | .add _ _ => true
  | .sub _ _ => true
  | .cmpeq _ _ => true
  | .cmple _ _ => true
  | .cmplt _ _ => true
  | .cmpgt _ _ => true
  | .cmpge _ _ => true
  | .fromf _ => true
  | .tof _ => true
  | .fromi _ => true
  | .toi _ => true

/-- Two states whose unit is the same: they may differ in the host's side of the port only. -/
abbrev sameUnit (s t : State) : Prop := s.cfg = t.cfg ∧ s.lut = t.lut

/-- `s` after its command was answered with the result `v`, FAULT 0 and NOTICE 0 (30_encoding R37), and
with nothing else changed. -/
abbrev answered (s : State) (v : Word32) : State :=
  { cfg := s.cfg, lut := s.lut, inputs := s.inputs.tail, responses := s.responses ++ [.result v false] }

/-- `s` after its command was answered with a fault, and with nothing else changed (60_exceptions
R100). -/
abbrev faulted (s : State) (x : CommandFault) : State :=
  { cfg := s.cfg, lut := s.lut, inputs := s.inputs.tail, responses := s.responses ++ [.fault x] }

/-- A packed result in R, zero-extended (30_encoding R37). -/
abbrev inR (x : Packed) : Word32 := BitVec.ofNat 32 x.toNat

/-- The sign bit of a pattern as a number (10_state R14). -/
abbrev signNat (x : Packed) : Nat := x.toNat / 2 ^ 15

/-- The magnitude field M of a pattern as a number (10_state R14). -/
abbrev magNat (x : Packed) : Nat := x.toNat % 2 ^ 15

/-- The exponent of a pattern in grid units, `K = M - 16384` (00_scope R8). -/
abbrev expOf (x : Packed) : Int := (magNat x : Int) - 16384

/-- The result word with sign bit `sign` and the magnitude field `M` clamped to 1..32767: the pattern
of sign and exponent `M - 16384`, saturated (42_codec R63, R65). -/
abbrev clampedWord (sign : Nat) (M : Int) : Word32 :=
  BitVec.ofNat 32 (sign * 2 ^ 15 + (max 1 (min 32767 M)).toNat)

/-- NEG's result as a pattern: bit 15 flipped, but for the two sentinels (43_multiplicative R75). -/
abbrev flipped (x : Packed) : Packed :=
  if x = 0x0000 ∨ x = 0x8000 then x else BitVec.ofNat 16 (x.toNat + 2 ^ 15)

/-- The order of non-NaR patterns as sign and magnitude (45_compare R85). -/
abbrev orderKey (x : Packed) : Int := if x.toNat < 2 ^ 15 then x.toNat else 2 ^ 15 - x.toNat

/-- `F = 2^f` of the active configuration (00_scope R5). -/
abbrev gridOf (s : State) : Nat := 2 ^ s.cfg.f.toNat

/-- `E[i]` as the table of `s` holds it: `EXP2T[i]`, and `E[F] = 2^32` (41_lut R52). -/
abbrev tableE (s : State) (i : Nat) : Nat :=
  if i = gridOf s then 2 ^ 32 else (s.lut.exp2t.getD i 0).toNat

/-- `LOG2T[i]` as the table of `s` holds it (41_lut R52, R53). -/
abbrev tableT (s : State) (i : Nat) : Nat := (s.lut.log2t.getD i 0).toNat

/-- How many of the thresholds that `s` holds are at most `m` (41_lut R56). -/
abbrev roundIndex (s : State) (m : Nat) : Nat := s.lut.log2t.countP fun e => e.toNat ≤ m

/-- The real number a pattern stands for under fraction width f: 0 for Zero, `(-1)^s * 2^(K/2^f)` for
a Finite pattern (10_state R14). (For NaR, "not a real", the value is of no use.) -/
noncomputable def realValue (f : Nat) (x : Packed) : ℝ :=
  if x = 0x0000 then 0
  else (if x.toNat < 2 ^ 15 then 1 else -1) * (2 : ℝ) ^ ((expOf x : ℝ) / 2 ^ f)

/-- The command word with opcode `op` and the operand fields A and B (30_encoding R30, R32). -/
abbrev wordOf (op : Nat) (A : Nat) (B : Nat) : Word64 := BitVec.ofNat 64 (op * 2 ^ 56 + B * 2 ^ 32 + A)

/-- `N / d` rounded to the nearest integer, ties to even (46_conversion R92). -/
abbrev nearestEven (N d : Nat) : Nat :=
  if d < 2 * (N % d) ∨ (2 * (N % d) = d ∧ N / d % 2 = 1) then N / d + 1 else N / d

/-- A 64-bit word that is no command, by its four fields as numbers (60_exceptions R105): a reserved
OP, or RSV not zero, or B not zero where the format has no second operand, or A not zero (format N), or
A[31:16] not zero (formats U16 and B16). -/
abbrev illegalWord (c : Word64) : Prop :=
  (c.toNat / 2 ^ 56) ∉ [0x01, 0x02, 0x03, 0x10, 0x11, 0x12, 0x13, 0x14, 0x15, 0x18, 0x19, 0x20, 0x21,
      0x22, 0x23, 0x24, 0x30, 0x31, 0x32, 0x33] ∨
  c.toNat / 2 ^ 48 % 2 ^ 8 ≠ 0 ∨
  (c.toNat / 2 ^ 56 ∈ [0x01, 0x02, 0x03, 0x12, 0x13, 0x14, 0x15, 0x30, 0x31, 0x32, 0x33] ∧
    c.toNat / 2 ^ 32 % 2 ^ 16 ≠ 0) ∨
  (c.toNat / 2 ^ 56 = 0x01 ∧ c.toNat % 2 ^ 32 ≠ 0) ∨
  (c.toNat / 2 ^ 56 ∈ [0x10, 0x11, 0x12, 0x13, 0x14, 0x15, 0x18, 0x19, 0x20, 0x21, 0x22, 0x23, 0x24,
      0x31, 0x33] ∧ c.toNat / 2 ^ 16 % 2 ^ 16 ≠ 0)

end Sys2Proof.Machine
end

