-- ==== Sys2Proof/Certificates/Slice0/Obligations.lean ====
section
/-! DEFINITION. The statements for the provers, rule by rule of the spec. In each, `answered s v` is `s`
with its command answered by the result `v` and nothing else changed, and `faulted s x` the same with a
fault, so every statement that concludes with one of them is also that command's frame. How the port's
words and responses are held (`inputs`, `responses`) is the model's choice (log 1, log 2). -/

open Sys2Proof Sys2Proof.Machine Sys2Proof.Config

/-! ## Encoding -/

/-- 30_encoding R31 with R30 and R32: the word of each of the twenty commands. -/
def Obligations.EncodeLaysOutTheFields : Prop :=
  encode .getcfg = wordOf 0x01 0 0 ∧
  (∀ x, encode (.setfrac x) = wordOf 0x02 x.toNat 0) ∧
  (∀ x, encode (.setrnd x) = wordOf 0x03 x.toNat 0) ∧
  (∀ a b, encode (.mul a b) = wordOf 0x10 a.toNat b.toNat) ∧
  (∀ a b, encode (.div a b) = wordOf 0x11 a.toNat b.toNat) ∧
  (∀ a, encode (.sqr a) = wordOf 0x12 a.toNat 0) ∧
  (∀ a, encode (.sqrt a) = wordOf 0x13 a.toNat 0) ∧
  (∀ a, encode (.inv a) = wordOf 0x14 a.toNat 0) ∧
  (∀ a, encode (.neg a) = wordOf 0x15 a.toNat 0) ∧
  (∀ a b, encode (.add a b) = wordOf 0x18 a.toNat b.toNat) ∧
  (∀ a b, encode (.sub a b) = wordOf 0x19 a.toNat b.toNat) ∧
  (∀ a b, encode (.cmpeq a b) = wordOf 0x20 a.toNat b.toNat) ∧
  (∀ a b, encode (.cmple a b) = wordOf 0x21 a.toNat b.toNat) ∧
  (∀ a b, encode (.cmplt a b) = wordOf 0x22 a.toNat b.toNat) ∧
  (∀ a b, encode (.cmpgt a b) = wordOf 0x23 a.toNat b.toNat) ∧
  (∀ a b, encode (.cmpge a b) = wordOf 0x24 a.toNat b.toNat) ∧
  (∀ x, encode (.fromf x) = wordOf 0x30 x.toNat 0) ∧
  (∀ a, encode (.tof a) = wordOf 0x31 a.toNat 0) ∧
  (∀ x, encode (.fromi x) = wordOf 0x32 x.toNat 0) ∧
  (∀ a, encode (.toi a) = wordOf 0x33 a.toNat 0)

/-- Decoding and encoding are inverse: every command, with every operand at every value, decodes from
its own word, and a word that decodes is the one word of the command it decodes to. -/
def Obligations.DecodeAndEncodeAreInverse : Prop :=
  (∀ i : Instr, decode (encode i) = .ok i) ∧
  ∀ (c : Word64) (i : Instr), decode c = .ok i → encode i = c

/-- 30_encoding R32: a word is the command of a row exactly when `c AND mask = match`, and the masks of
different rows never admit the same word. -/
def Obligations.DecodeAcceptsExactlyTheTable : Prop :=
  (formatMask .n = 0xFFFFFFFFFFFFFFFF ∧ formatMask .u16 = 0xFFFFFFFFFFFF0000 ∧
    formatMask .u32 = 0xFFFFFFFF00000000 ∧ formatMask .b16 = 0xFFFF0000FFFF0000) ∧
  (∀ r ∈ opcodeTable, ∀ c : Word64,
    c &&& formatMask r.format = BitVec.ofNat 64 (r.op.toNat * 2 ^ 56) ↔
      ∃ i, decode c = .ok i ∧ rowOf i = r) ∧
  (∀ r ∈ opcodeTable, ∀ r' ∈ opcodeTable, ∀ c : Word64,
    rowAdmits r c = true → rowAdmits r' c = true → r = r')

/-- A few words written out in the spec's own vectors decode to their commands, and two that are no
command are refused (sanity). The names of the reasons for which a word is refused are the model's
choice (log 9): to the host each is the one fault IllegalCommand (60_exceptions R105). -/
def Obligations.SpecWordsDecode : Prop :=
  decode 0x1000410000004196 = .ok (.mul 0x4196 0x4100) ∧
  decode 0x2200419600004000 = .ok (.cmplt 0x4000 0x4196) ∧
  decode 0x130000000000C196 = .ok (.sqrt 0xC196) ∧
  decode 0x020000000000000C = .ok (.setfrac 12) ∧
  decode 0x3000000040400000 = .ok (.fromf 0x40400000) ∧
  decode 0x190042960000432C = .ok (.sub 0x432C 0x4296) ∧
  decode 0x1600000000004196 = .error (.reservedOpcode 0x16) ∧
  decode 0x1001410000004196 = .error (.fieldNotZero .rsv)

/-! ## The port: steps, responses, faults, the notice -/

/-- A step runs the decoded command, which takes its word off the port (the model's `inputs`: log 1). -/
def Obligations.StepRunsTheDecodedCommand : Prop :=
  ∀ (s : State) (c : Word64) (rest : List Input) (i : Instr),
    s.inputs = .command c :: rest → decode c = .ok i →
      step s = exec i s ∧ ∃ t, exec i s = .next t ∧ t.inputs = rest

/-- 60_exceptions R105 with 30_encoding R34 and R35: a word that is no command is answered by
IllegalCommand and changes nothing, and every other word is a command. -/
def Obligations.IllegalWordIsAnswered : Prop :=
  responseWord (.fault .illegalCommand) = 0x0000000400000000 ∧
  ∀ (s : State) (c : Word64) (rest : List Input), s.inputs = .command c :: rest →
    (illegalWord c → step s = .next (faulted s .illegalCommand)) ∧
    (¬ illegalWord c → ∃ i, encode i = c ∧ step s = exec i s)

/-- 30_encoding R37: every command, legal or not, is answered by exactly one response, of which this is
the word. -/
def Obligations.OneResponsePerCommand : Prop :=
  (∀ (s : State) (c : Word64) (rest : List Input), s.inputs = .command c :: rest →
    ∃ t r, step s = .next t ∧ t.inputs = rest ∧ t.responses = s.responses ++ [r]) ∧
  (∀ v notice, responseWord (.result v notice) =
    BitVec.ofNat 64 (v.toNat + (if notice then 2 ^ 35 else 0))) ∧
  responseWord (.fault .invalidFormat) = BitVec.ofNat 64 (1 * 2 ^ 32) ∧
  responseWord (.fault .invalidRoundingMode) = BitVec.ofNat 64 (2 * 2 ^ 32) ∧
  responseWord (.fault .negativeRadicand) = BitVec.ofNat 64 (3 * 2 ^ 32) ∧
  responseWord (.fault .illegalCommand) = BitVec.ofNat 64 (4 * 2 ^ 32)

/-- 60_exceptions R101: the four faults, each exactly where its row of the list says. -/
def Obligations.FaultsAreExactlyTheFour : Prop :=
  ∀ (s : State) (c : Word64) (rest : List Input), s.inputs = .command c :: rest →
    ∃ t r, step s = .next t ∧ t.responses = s.responses ++ [r] ∧
      (responseFault r = 1 ↔ ∃ n, decode c = .ok (.setfrac n) ∧ (n.toNat < 7 ∨ 11 < n.toNat)) ∧
      (responseFault r = 2 ↔ ∃ m, decode c = .ok (.setrnd m) ∧ 1 < m.toNat) ∧
      (responseFault r = 3 ↔ ∃ a, decode c = .ok (.sqrt a) ∧ 0x8001 ≤ a.toNat) ∧
      (responseFault r = 4 ↔ illegalWord c) ∧
      (responseFault r).toNat ≤ 4

/-- 60_exceptions R108: NOTICE is 1 exactly in the response to a successful SETFRAC. -/
def Obligations.NoticeOnlyOnSetfrac : Prop :=
  ∀ (s : State) (c : Word64) (rest : List Input), s.inputs = .command c :: rest →
    ∃ t r, step s = .next t ∧ t.responses = s.responses ++ [r] ∧
      ((responseWord r).getLsbD 35 = true ↔
        ∃ n, decode c = .ok (.setfrac n) ∧ 7 ≤ n.toNat ∧ n.toNat ≤ 11) ∧
      ((responseWord r).getLsbD 35 = true → responseFault r = 0)

/-- 60_exceptions R100: a fault is answered by its code with NOTICE and R zero; the command has had no
effect, and the fault is not sticky: any next command is answered as if the faulted one had not been. -/
def Obligations.FaultHasNoEffect : Prop :=
  ∀ (i : Instr) (s t : State) (x : CommandFault),
    exec i s = .next t → t.responses = s.responses ++ [.fault x] →
      t = faulted s x ∧
      (responseWord (.fault x)).toNat = 2 ^ 32 * (match x with
        | .invalidFormat => 1 | .invalidRoundingMode => 2 | .negativeRadicand => 3
        | .illegalCommand => 4) ∧
      ∀ (j : Instr), ∃ u v r, exec j s = .next u ∧ exec j t = .next v ∧
        u.responses = s.responses ++ [r] ∧ v.responses = t.responses ++ [r] ∧ sameUnit u v

/-- 10_state R10: a command's response and the unit it leaves are functions of the command and the unit
alone, and every command but SETFRAC and SETRND leaves the unit unchanged. -/
def Obligations.CommandsDependOnTheUnitOnly : Prop :=
  ∀ (i : Instr) (s s' : State), sameUnit s s' →
    ∃ r t t', exec i s = .next t ∧ exec i s' = .next t' ∧
      t.inputs = s.inputs.tail ∧ t.responses = s.responses ++ [r] ∧
      t'.inputs = s'.inputs.tail ∧ t'.responses = s'.responses ++ [r] ∧
      sameUnit t t' ∧ (isValueCommand i = true → sameUnit s t)

/-- A whole run of the port (its lists and the reset among them are the model's: logs 1 to 4): as many
steps as there are inputs use them all up, stop nowhere, keep the earlier responses and add exactly one
response for every command. -/
def Obligations.RunAnswersEveryCommandOnce : Prop :=
  ∀ s : State, ∃ t : State,
    Sys2Proof.core.run s.inputs.length s = .next t ∧ t.inputs = [] ∧
      s.responses <+: t.responses ∧
      t.responses.length = s.responses.length + (s.inputs.filter (· ≠ .reset)).length

/-- 20_memory R22: a command may be repeated with the same response as long as no SETFRAC, SETRND or
reset comes between. -/
def Obligations.ValueCommandsRepeat : Prop :=
  ∀ (s : State) (c : Word64) (between : List Word64),
    (∀ d ∈ c :: between, ∀ i, decode d = .ok i → isValueCommand i = true) →
    s.inputs = (c :: between ++ [c]).map .command →
    ∃ (t : State) (r : Response) (middle : List Response),
      Sys2Proof.core.run (between.length + 2) s = .next t ∧
        t.responses = s.responses ++ r :: middle ++ [r] ∧ middle.length = between.length ∧
        sameUnit s t

/-! ## Reset, the configuration and the invariant -/

/-- The reset values of the run-time parameters (00_scope R7), the table built for them and no command
pending (70 R120). That what is pending stands in the list `inputs` is the model's choice (log 1). -/
def Obligations.ResetValues : Prop :=
  State.reset.cfg.f = 8 ∧ State.reset.cfg.rmode = .lin ∧ State.reset.lut = rebuild 8 .lin ∧
    State.reset.inputs = []

/-- The reset input, which the model places among the port's inputs (log 4): it restores the unit of
the reset state and answers nothing (70 R120); and with nothing presented nothing happens (log 3). -/
def Obligations.ResetInputRestoresTheUnit : Prop :=
  (∀ (s : State) (rest : List Input), s.inputs = .reset :: rest →
    step s = .next (State.mk ⟨8, .lin⟩ (rebuild 8 .lin) rest s.responses)) ∧
  (∀ s : State, s.inputs = [] → step s = .next s)

/-- The reset state meets the invariant. -/
def Obligations.ResetMeetsTheInvariant : Prop := Inv State.reset

/-- The invariant of 10_state R13 with the legal values of R11: every step keeps it. -/
def Obligations.EveryStepKeepsTheInvariant : Prop :=
  ∀ s t : State, Inv s → step s = .next t → Inv t

/-- 70 R122: reset and reconfiguration reach the same units, of which there are ten, every one
reachable from every other by at most two commands. -/
def Obligations.TenUnitsAreReachable : Prop :=
  (∀ s : State, ∃ t u, exec (.setfrac 8) s = .next t ∧ exec (.setrnd 0) t = .next u ∧
    sameUnit u State.reset) ∧
  (∀ s : State, ∃ t u, exec (.setrnd 0) s = .next t ∧ exec (.setfrac 8) t = .next u ∧
    sameUnit u State.reset) ∧
  (∀ (k : Nat) (s t : State), sameUnit s State.reset → Sys2Proof.core.run k s = .next t →
    t.cfg.f ∈ [7, 8, 9, 10, 11] ∧ t.cfg.rmode ∈ [RMode.lin, RMode.log] ∧
      t.lut = rebuild t.cfg.f t.cfg.rmode) ∧
  (∀ (s : State) (f : BitVec 4) (m : RMode), f ∈ [7, 8, 9, 10, 11] →
    ∃ i j t u, exec i s = .next t ∧ exec j t = .next u ∧ u.cfg = ⟨f, m⟩ ∧ u.lut = rebuild f m)

/-- 40_config R45. -/
def Obligations.GetcfgReadsTheConfiguration : Prop :=
  encode .getcfg = wordOf 0x01 0 0 ∧
  ∀ s : State, ∃ v : Word32, exec .getcfg s = .next (answered s v) ∧
    v.toNat = s.cfg.f.toNat + 16 * (15 - s.cfg.f.toNat) +
      256 * (if s.cfg.rmode = .lin then 0 else 1)

/-- 40_config R46 (and 60_exceptions R102). -/
def Obligations.SetfracSetsTheFractionWidth : Prop :=
  ∀ (s : State) (n : Word32),
    encode (.setfrac n) = wordOf 0x02 n.toNat 0 ∧
    (7 ≤ n.toNat → n.toNat ≤ 11 → ∃ f : BitVec 4, f.toNat = n.toNat ∧
      exec (.setfrac n) s = .next (State.mk ⟨f, s.cfg.rmode⟩ (rebuild f s.cfg.rmode)
        s.inputs.tail (s.responses ++ [.result 0 true]))) ∧
    (n.toNat < 7 ∨ 11 < n.toNat → exec (.setfrac n) s = .next (faulted s .invalidFormat))

/-- 40_config R47 (and 60_exceptions R103): and in its corner case (c), that only LOG2T differs between
the modes, so that the value commands other than ADD, SUB, FROMF, FROMI and SQRT answer alike. -/
def Obligations.SetrndSetsTheRoundingMode : Prop :=
  ∀ (s : State) (m : Word32),
    encode (.setrnd m) = wordOf 0x03 m.toNat 0 ∧
    (∀ r : RMode, m.toNat = (if r = .lin then 0 else 1) →
      exec (.setrnd m) s = .next (State.mk ⟨s.cfg.f, r⟩ (rebuild s.cfg.f r)
        s.inputs.tail (s.responses ++ [.result 0 false]))) ∧
    (2 ≤ m.toNat → exec (.setrnd m) s = .next (faulted s .invalidRoundingMode)) ∧
    (rebuild s.cfg.f .lin).exp2t = (rebuild s.cfg.f .log).exp2t ∧
    (Inv s → ∀ (r : RMode) (a b : Packed) (t : State),
      t = State.mk ⟨s.cfg.f, r⟩ (rebuild s.cfg.f r) s.inputs s.responses →
      ∀ i ∈ [Instr.mul a b, .div a b, .sqr a, .inv a, .neg a, .cmpeq a b, .cmple a b, .cmplt a b,
        .cmpgt a b, .cmpge a b, .tof a, .toi a],
        ∃ v, exec i s = .next (answered s v) ∧ exec i t = .next (answered t v))

/-- 40_config R49: writing the value already held succeeds, gives the notice (SETFRAC), and leaves the
unit as it was. -/
def Obligations.WritingTheHeldValueKeepsTheUnit : Prop :=
  ∀ s : State, Inv s →
    (∀ n : Word32, n.toNat = s.cfg.f.toNat →
      exec (.setfrac n) s =
        .next (State.mk s.cfg s.lut s.inputs.tail (s.responses ++ [.result 0 true]))) ∧
    (∀ m : Word32, m.toNat = (if s.cfg.rmode = .lin then 0 else 1) →
      exec (.setrnd m) s = .next (answered s 0))

/-! ## Multiplicative commands -/

/-- 43_multiplicative R70. -/
def Obligations.MulAddsExponents : Prop :=
  ∀ (s : State) (a b : Packed),
    encode (.mul a b) = wordOf 0x10 a.toNat b.toNat ∧
    (a = 0x8000 ∨ b = 0x8000 → exec (.mul a b) s = .next (answered s 0x8000)) ∧
    (a ≠ 0x8000 → b ≠ 0x8000 → a = 0x0000 ∨ b = 0x0000 →
      exec (.mul a b) s = .next (answered s 0x0000)) ∧
    (isFinite a → isFinite b → exec (.mul a b) s =
      .next (answered s (clampedWord ((signNat a + signNat b) % 2) (expOf a + expOf b + 16384)))) ∧
    exec (.mul a b) s = exec (.mul b a) s

/-- 43_multiplicative R71. -/
def Obligations.DivSubtractsExponents : Prop :=
  ∀ (s : State) (a b : Packed),
    encode (.div a b) = wordOf 0x11 a.toNat b.toNat ∧
    (a = 0x8000 ∨ b = 0x8000 ∨ b = 0x0000 → exec (.div a b) s = .next (answered s 0x8000)) ∧
    (a = 0x0000 → isFinite b → exec (.div a b) s = .next (answered s 0x0000)) ∧
    (isFinite a → isFinite b → exec (.div a b) s =
      .next (answered s (clampedWord ((signNat a + signNat b) % 2) (expOf a - expOf b + 16384)))) ∧
    (isFinite a → exec (.div a a) s = .next (answered s 0x4000))

/-- 43_multiplicative R72. -/
def Obligations.SqrDoublesTheExponent : Prop :=
  ∀ (s : State) (a : Packed),
    encode (.sqr a) = wordOf 0x12 a.toNat 0 ∧
    (a = 0x8000 → exec (.sqr a) s = .next (answered s 0x8000)) ∧
    (a = 0x0000 → exec (.sqr a) s = .next (answered s 0x0000)) ∧
    (isFinite a → exec (.sqr a) s = .next (answered s (clampedWord 0 (2 * expOf a + 16384)))) ∧
    exec (.sqr a) s = exec (.mul a a) s

/-- 43_multiplicative R73 (and 60_exceptions R104): the root, on the grid for an even exponent, and for
an odd one the lower neighbour in lin mode and the even neighbour in log mode. -/
def Obligations.SqrtHalvesTheExponent : Prop :=
  ∀ (s : State) (a : Packed),
    encode (.sqrt a) = wordOf 0x13 a.toNat 0 ∧
    (a = 0x8000 → exec (.sqrt a) s = .next (answered s 0x8000)) ∧
    (a = 0x0000 → exec (.sqrt a) s = .next (answered s 0x0000)) ∧
    (isFinite a → signNat a = 1 → exec (.sqrt a) s = .next (faulted s .negativeRadicand)) ∧
    (isFinite a → signNat a = 0 → ∀ L : Int,
      (2 * L = expOf a ∨ (2 * L = expOf a - 1 ∧ s.cfg.rmode = .lin) ∨
        ((2 * L = expOf a - 1 ∨ 2 * L = expOf a + 1) ∧ L % 2 = 0 ∧ s.cfg.rmode = .log)) →
      -8192 ≤ L ∧ L ≤ 8192 ∧
      exec (.sqrt a) s = .next (answered s (BitVec.ofNat 32 (L + 16384).toNat)))

/-- 43_multiplicative R74: bits 14:0 become 32768 - a[14:0], exactly, and INV undoes itself. -/
def Obligations.InvNegatesTheExponent : Prop :=
  ∀ (s : State) (a : Packed),
    encode (.inv a) = wordOf 0x14 a.toNat 0 ∧
    (a = 0x8000 ∨ a = 0x0000 → exec (.inv a) s = .next (answered s 0x8000)) ∧
    (isFinite a → ∃ r : Packed, isFinite r ∧ signNat r = signNat a ∧ expOf r = -expOf a ∧
      magNat r = 32768 - magNat a ∧
      exec (.inv a) s = .next (answered s (inR r)) ∧
      exec (.inv r) s = .next (answered s (inR a))) ∧
    exec (.inv a) s = exec (.div 0x4000 a) s

/-- 43_multiplicative R75. -/
def Obligations.NegFlipsTheSign : Prop :=
  ∀ (s : State) (a : Packed),
    encode (.neg a) = wordOf 0x15 a.toNat 0 ∧
    (a = 0x0000 ∨ a = 0x8000 → exec (.neg a) s = .next (answered s (inR a))) ∧
    (isFinite a → ∃ r : Packed, signNat r = 1 - signNat a ∧ magNat r = magNat a ∧
      exec (.neg a) s = .next (answered s (inR r)) ∧ exec (.neg r) s = .next (answered s (inR a)))

/-- The multiplicative commands and the comparisons answer alike in any two states, whatever their
configurations and tables; SQRT in any two states of one rounding mode (70 R124, 41_lut R59). -/
def Obligations.MultiplicativeIgnoresTheConfiguration : Prop :=
  ∀ (s s' : State) (i : Instr),
    (∃ a b, i = .mul a b ∨ i = .div a b ∨ i = .sqr a ∨ i = .inv a ∨ i = .neg a ∨
      (i = .sqrt a ∧ s.cfg.rmode = s'.cfg.rmode) ∨ i = .cmpeq a b ∨ i = .cmple a b ∨
      i = .cmplt a b ∨ i = .cmpgt a b ∨ i = .cmpge a b) →
    ∃ t t' r, exec i s = .next t ∧ exec i s' = .next t' ∧
      t.responses = s.responses ++ [r] ∧ t'.responses = s'.responses ++ [r]

/-- 43_multiplicative R77: within the range of exponents MUL, DIV, SQR, INV and NEG are exact on the
real numbers the patterns stand for, and SQRT is where the exponent is even. -/
def Obligations.MultiplicativeIsExactOnReals : Prop :=
  ∀ (s : State) (a b : Packed), isFinite a → isFinite b →
    let V := realValue s.cfg.f.toNat
    (-16383 ≤ expOf a + expOf b → expOf a + expOf b ≤ 16383 →
      ∃ r : Packed, exec (.mul a b) s = .next (answered s (inR r)) ∧ V r = V a * V b) ∧
    (-16383 ≤ expOf a - expOf b → expOf a - expOf b ≤ 16383 →
      ∃ r : Packed, exec (.div a b) s = .next (answered s (inR r)) ∧ V r = V a / V b) ∧
    (-16383 ≤ 2 * expOf a → 2 * expOf a ≤ 16383 →
      ∃ r : Packed, exec (.sqr a) s = .next (answered s (inR r)) ∧ V r = V a ^ 2) ∧
    (∃ r : Packed, exec (.inv a) s = .next (answered s (inR r)) ∧ V r = (V a)⁻¹) ∧
    (∃ r : Packed, exec (.neg a) s = .next (answered s (inR r)) ∧ V r = -V a) ∧
    (signNat a = 0 → expOf a % 2 = 0 →
      ∃ r : Packed, exec (.sqrt a) s = .next (answered s (inR r)) ∧ V r = Real.sqrt (V a))

/-! ## The lookup table -/

/-- 41_lut R51: every entry of EXP2T is the one integer of the rule's exact test, and is the integer
nearest to `2^32 * (2^(i/F) - 1)`, whatever the rounding mode. -/
def Obligations.Exp2EntriesAreNearest : Prop :=
  ∀ s : State, Inv s → ∀ i : Nat, i < gridOf s →
    (∀ x : Nat, ((2 * (2 ^ 32 + x) - 1) ^ gridOf s ≤ 2 ^ (33 * gridOf s + i) ∧
      2 ^ (33 * gridOf s + i) < (2 * (2 ^ 32 + x) + 1) ^ gridOf s) ↔ x = tableE s i) ∧
    |(tableE s i : ℝ) - 2 ^ 32 * ((2 : ℝ) ^ ((i : ℝ) / gridOf s) - 1)| ≤ 1 / 2 ∧
    tableE s i < 2 ^ 32 ∧ tableE s 0 = 0 ∧ ∀ m, (rebuild s.cfg.f m).exp2t = s.lut.exp2t

/-- 41_lut R52: the thresholds in lin mode. -/
def Obligations.LinThresholdsAreMidpoints : Prop :=
  ∀ s : State, Inv s → s.cfg.rmode = .lin → ∀ i : Nat, i < gridOf s → ∀ x : Nat,
    x = tableE s i + tableE s (i + 1) →
    (x % 2 = 0 → i % 2 = 0 → tableT s i = x / 2 + 1) ∧
    (x % 2 = 0 → i % 2 = 1 → tableT s i = x / 2) ∧
    (x % 2 = 1 → tableT s i = (x + 1) / 2) ∧
    (∀ m : Nat, tableT s i ≤ m ↔ x < 2 * m ∨ (2 * m = x ∧ i % 2 = 1))

/-- 41_lut R53: the thresholds in log mode, by the exact test and as nearest integers. -/
def Obligations.LogThresholdsAreLogMidpoints : Prop :=
  ∀ s : State, Inv s → s.cfg.rmode = .log → ∀ i : Nat, i < gridOf s →
    (∀ x : Nat, ((2 * (2 ^ 32 + x) - 1) ^ (2 * gridOf s) ≤ 2 ^ (66 * gridOf s + 2 * i + 1) ∧
      2 ^ (66 * gridOf s + 2 * i + 1) < (2 * (2 ^ 32 + x) + 1) ^ (2 * gridOf s)) ↔
        x = tableT s i) ∧
    |(tableT s i : ℝ) - 2 ^ 32 * ((2 : ℝ) ^ ((2 * i + 1 : ℝ) / (2 * gridOf s)) - 1)| ≤ 1 / 2

/-- 41_lut R54: the order of the entries, for all ten configurations. -/
def Obligations.TableEntriesAreOrdered : Prop :=
  ∀ s : State, Inv s →
    s.lut.exp2t.length = gridOf s ∧ s.lut.log2t.length = gridOf s ∧
    ∀ i : Nat, i < gridOf s → tableE s i < tableT s i ∧ tableT s i < tableE s (i + 1) ∧
      roundIndex s (tableE s i) = i

/-- 41_lut R56: `Log2Lookup(m)` is the number of thresholds that are at most m, which is the least n
with `n = F` or `LOG2T[n] > m`. -/
def Obligations.Log2LookupIsTheLeastIndex : Prop :=
  ∀ s : State, Inv s → ∀ m : Nat, m < 2 ^ 32 →
    log2Lookup s.lut (gridOf s) m = roundIndex s m ∧ roundIndex s m ≤ gridOf s ∧
    (roundIndex s m = gridOf s ∨ m < tableT s (roundIndex s m)) ∧
    ∀ k : Nat, k < roundIndex s m → tableT s k ≤ m

/-- What the lin table achieves: the index a linear fraction rounds to is that of a nearest grid
significand in linear space, and of two equally near the even one (41_lut R52, R56; D12). -/
def Obligations.LinLookupRoundsToNearest : Prop :=
  ∀ s : State, Inv s → s.cfg.rmode = .lin → ∀ m : Nat, m < 2 ^ 32 → ∀ j : Nat, j ≤ gridOf s →
    ((m : Int) - tableE s (roundIndex s m)).natAbs ≤ ((m : Int) - tableE s j).natAbs ∧
    (((m : Int) - tableE s (roundIndex s m)).natAbs = ((m : Int) - tableE s j).natAbs →
      j = roundIndex s m ∨ roundIndex s m % 2 = 0)

/-- What the log table achieves: the index n a linear fraction rounds to lies, in log space, between
the midpoints below and above n, to within half a unit of the 32-bit fraction (41_lut R53, R56). -/
def Obligations.LogLookupRoundsInLogSpace : Prop :=
  ∀ s : State, Inv s → s.cfg.rmode = .log → ∀ m : Nat, m < 2 ^ 32 → ∀ n : Nat, n = roundIndex s m →
    (n ≠ 0 → 2 ^ 32 * (2 : ℝ) ^ ((2 * n - 1 : ℝ) / (2 * gridOf s)) - 1 / 2 ≤ 2 ^ 32 + (m : ℝ)) ∧
    (n ≠ gridOf s →
      2 ^ 32 + (m : ℝ) < 2 ^ 32 * (2 : ℝ) ^ ((2 * n + 1 : ℝ) / (2 * gridOf s)) + 1 / 2)

/-! ## The codec core -/

/-- 42_codec R65 with R63: `Pack` clamps, is exact in range, and never gives a sentinel. -/
def Obligations.PackSaturates : Prop :=
  ∀ (sign : Bool) (K : Int),
    isFinite (pack sign K) ∧ signNat (pack sign K) = sign.toNat ∧
    (K > 16383 → expOf (pack sign K) = 16383) ∧
    (K < -16383 → expOf (pack sign K) = -16383) ∧
    (-16383 ≤ K → K ≤ 16383 → unpack (pack sign K) = .finite sign K)

/-- 42_codec R66. -/
def Obligations.EncodeLogRoundsHalfUnits : Prop :=
  ∀ (sign : Bool) (K : Int),
    (∀ m, encodeLog m sign (2 * K) = pack sign K) ∧
    encodeLog .lin sign (2 * K + 1) = pack sign K ∧
    (K % 2 = 0 → encodeLog .log sign (2 * K + 1) = pack sign K) ∧
    (K % 2 = 1 → encodeLog .log sign (2 * K + 1) = pack sign (K + 1))

/-- 42_codec R68. -/
def Obligations.NormaliseKeepsTheTop33Bits : Prop :=
  ∀ S : Nat, 0 < S → ∀ p sig, normalise S = (p, sig) →
    2 ^ p ≤ S ∧ S < 2 ^ (p + 1) ∧ 2 ^ 32 ≤ sig ∧ sig < 2 ^ 33 ∧ sig = S * 2 ^ 32 / 2 ^ p ∧
    (∀ T : Nat, T ≤ sig - 2 ^ 32 ↔ (T : ℝ) ≤ (S : ℝ) * 2 ^ 32 / 2 ^ p - 2 ^ 32)

/-- 42_codec R69: the linear value of an exponent lies in its octave and is within `2^-33` of
`2^(K/F)`, relatively; it is exact on the octave's first grid point; and the octave and the index are
the two fields of the pattern. -/
def Obligations.LinearApproximatesThePower : Prop :=
  ∀ s : State, Inv s → ∀ K : Int, -16383 ≤ K → K ≤ 16383 → ∀ N q, linear s.cfg s.lut K = (N, q) →
    q = K / gridOf s - 32 ∧ N = 2 ^ 32 + tableE s (K % gridOf s).toNat ∧ 2 ^ 32 ≤ N ∧ N < 2 ^ 33 ∧
    |(N : ℝ) * (2 : ℝ) ^ q - (2 : ℝ) ^ ((K : ℝ) / gridOf s)| ≤
      (2 : ℝ) ^ ((K : ℝ) / gridOf s) / 2 ^ 33 ∧
    (K % gridOf s = 0 → (N : ℝ) * (2 : ℝ) ^ q = (2 : ℝ) ^ ((K : ℝ) / gridOf s)) ∧
    ∀ x : Packed, expOf x = K → K / gridOf s = (magNat x / gridOf s : Nat) - 2 ^ (14 - s.cfg.f.toNat) ∧
      K % gridOf s = (x.toNat % gridOf s : Nat)

/-- 46_conversion R92. -/
def Obligations.RneShiftRoundsToNearestEven : Prop :=
  ∀ N n : Nat,
    rneShift N (-(n : Int)) = N * 2 ^ n ∧
    rneShift N n = nearestEven N (2 ^ n) ∧
    2 * ((rneShift N n : Int) * 2 ^ n - N).natAbs ≤ 2 ^ n ∧
    (2 * ((rneShift N n : Int) * 2 ^ n - N).natAbs = 2 ^ n → 0 < n → rneShift N n % 2 = 0) ∧
    (N < 2 ^ 33 → 34 ≤ n → rneShift N n = 0) ∧
    (N < 2 ^ 33 → 2 ^ 32 < N → rneShift N 33 = 1) ∧ rneShift (2 ^ 32) 33 = 0

/-! ## Additive commands -/

/-- 44_additive R80: the sentinels, and the datapath on two Finite operands (g the one of larger or
equal exponent, in either position). -/
def Obligations.AddReconstructsAndRounds : Prop :=
  ∀ (s : State) (a b : Packed),
    encode (.add a b) = wordOf 0x18 a.toNat b.toNat ∧
    (a = 0x8000 ∨ b = 0x8000 → exec (.add a b) s = .next (answered s 0x8000)) ∧
    (a = 0x0000 → b ≠ 0x8000 → exec (.add a b) s = .next (answered s (inR b))) ∧
    (b = 0x0000 → a ≠ 0x8000 → exec (.add a b) s = .next (answered s (inR a))) ∧
    (Inv s → isFinite a → isFinite b → ∀ g h : Packed, (g = a ∧ h = b) ∨ (g = b ∧ h = a) →
      expOf h ≤ expOf g →
      ∀ (Ng Nh : Int) (S : Int),
        Ng = 2 ^ 32 + tableE s (expOf g % gridOf s).toNat →
        Nh = 2 ^ 32 + tableE s (expOf h % gridOf s).toNat →
        S = Ng * 2 ^ (expOf g / gridOf s - expOf h / gridOf s).toNat +
          (if signNat g = signNat h then Nh else -Nh) →
        0 ≤ S ∧
        (S = 0 → exec (.add a b) s = .next (answered s 0x0000)) ∧
        (∀ p : Nat, 2 ^ p ≤ S → S < 2 ^ (p + 1) →
          exec (.add a b) s = .next (answered s (clampedWord (signNat g)
            ((expOf h / gridOf s + p - 32) * gridOf s +
              roundIndex s (S.toNat * 2 ^ 32 / 2 ^ p - 2 ^ 32) + 16384)))))

/-- 44_additive R81. -/
def Obligations.SubIsAddOfTheNegation : Prop :=
  ∀ (s : State) (a b : Packed),
    encode (.sub a b) = wordOf 0x19 a.toNat b.toNat ∧
    ∃ v, exec (.sub a b) s = .next (answered s v) ∧
      exec (.add a (flipped b)) s = .next (answered s v)

/-- 44_additive R82 (a) to (d): commutativity, the additive identity, NaR dominance, sign symmetry. -/
def Obligations.AddIsCommutativeAndSignSymmetric : Prop :=
  ∀ (s : State) (a b : Packed),
    exec (.add a b) s = exec (.add b a) s ∧
    exec (.add a 0x0000) s = .next (answered s (inR a)) ∧
    exec (.add a 0x8000) s = .next (answered s 0x8000) ∧
    ∃ v : Packed, exec (.add a b) s = .next (answered s (inR v)) ∧
      exec (.add (flipped a) (flipped b)) s = .next (answered s (inR (flipped v))) ∧
    ∃ d : Packed, exec (.sub a b) s = .next (answered s (inR d)) ∧
      exec (.sub b a) s = .next (answered s (inR (flipped d)))

/-- 44_additive R82 (e): doubling adds one octave, exactly, and saturates. -/
def Obligations.DoublingAddsOneOctave : Prop :=
  ∀ (s : State) (a : Packed), Inv s → isFinite a →
    exec (.add a a) s = .next (answered s (clampedWord (signNat a) (expOf a + gridOf s + 16384)))

/-- 44_additive R80 (c): two Finite operands give Zero only by exact cancellation; any other sum of
them is Finite. -/
def Obligations.SumIsZeroOnlyByCancellation : Prop :=
  ∀ (s : State) (a b : Packed), Inv s → isFinite a → isFinite b →
    (b = flipped a → exec (.add a b) s = .next (answered s 0x0000)) ∧
    (b ≠ flipped a → ∃ r : Packed, isFinite r ∧ exec (.add a b) s = .next (answered s (inR r)))

/-- 44_additive R82 (g), by a bound in whole octaves that every configuration meets: an operand f + 2
octaves or more below the other (R82 (g): "at least about `F * (f + 1.53)`") is absorbed, by ADD in
either position and by SUB; so is every operand 35 octaves or more below. -/
def Obligations.DistantOperandIsAbsorbed : Prop :=
  ∀ (s : State) (g h : Packed), Inv s → isFinite g → isFinite h →
    expOf h + (s.cfg.f.toNat + 2) * gridOf s ≤ expOf g →
      exec (.add g h) s = .next (answered s (inR g)) ∧
      exec (.add h g) s = .next (answered s (inR g)) ∧
      exec (.sub g h) s = .next (answered s (inR g))

/-- 44_additive R83: the sum of two neighbouring grid values of the same sign. -/
def Obligations.NeighbourSumsFollowTheTieRule : Prop :=
  ∀ (s : State) (x y : Packed), Inv s → isFinite x → isFinite y →
    signNat x = signNat y → expOf y = expOf x - 1 →
    ∀ X : Nat, X = tableE s (expOf y % gridOf s).toNat + tableE s ((expOf y % gridOf s).toNat + 1) →
      (s.cfg.rmode = .lin → X % 2 = 0 → ∀ L : Int,
        (L = expOf x + gridOf s - 1 ∨ L = expOf x + gridOf s) → L % 2 = 0 →
        exec (.add x y) s = .next (answered s (clampedWord (signNat x) (L + 16384)))) ∧
      (s.cfg.rmode = .lin → X % 2 = 1 →
        exec (.add x y) s =
          .next (answered s (clampedWord (signNat x) (expOf x + gridOf s - 1 + 16384)))) ∧
      (s.cfg.rmode = .log →
        exec (.add x y) s =
          .next (answered s (clampedWord (signNat x) (expOf x + gridOf s + 16384))))

/-! ## Comparisons -/

/-- 45_compare R85 to R90: the five comparisons by the ordering key; false with a NaR operand. -/
def Obligations.ComparisonsOrderKeys : Prop :=
  ∀ (s : State) (a b : Packed),
    (encode (.cmpeq a b) = wordOf 0x20 a.toNat b.toNat ∧
      encode (.cmple a b) = wordOf 0x21 a.toNat b.toNat ∧
      encode (.cmplt a b) = wordOf 0x22 a.toNat b.toNat ∧
      encode (.cmpgt a b) = wordOf 0x23 a.toNat b.toNat ∧
      encode (.cmpge a b) = wordOf 0x24 a.toNat b.toNat) ∧
    (a = 0x8000 ∨ b = 0x8000 →
      exec (.cmpeq a b) s = .next (answered s 0) ∧ exec (.cmple a b) s = .next (answered s 0) ∧
      exec (.cmplt a b) s = .next (answered s 0) ∧ exec (.cmpgt a b) s = .next (answered s 0) ∧
      exec (.cmpge a b) s = .next (answered s 0)) ∧
    (a ≠ 0x8000 → b ≠ 0x8000 →
      exec (.cmpeq a b) s = .next (answered s (if a = b then 1 else 0)) ∧
      (a = b ↔ orderKey a = orderKey b) ∧
      exec (.cmple a b) s = .next (answered s (if orderKey a ≤ orderKey b then 1 else 0)) ∧
      exec (.cmplt a b) s = .next (answered s (if orderKey a < orderKey b then 1 else 0)) ∧
      exec (.cmpgt a b) s = .next (answered s (if orderKey a > orderKey b then 1 else 0)) ∧
      exec (.cmpge a b) s = .next (answered s (if orderKey a ≥ orderKey b then 1 else 0)))

/-- 45_compare R91 (d) with R85: for patterns other than NaR, under any configuration, CMPLT and CMPEQ
decide the order and the equality of the real numbers the patterns stand for. -/
def Obligations.ComparisonsFollowTheRealOrder : Prop :=
  ∀ (s : State) (a b : Packed), a ≠ 0x8000 → b ≠ 0x8000 →
    (realValue s.cfg.f.toNat a < realValue s.cfg.f.toNat b →
      exec (.cmplt a b) s = .next (answered s 1)) ∧
    (realValue s.cfg.f.toNat b ≤ realValue s.cfg.f.toNat a →
      exec (.cmplt a b) s = .next (answered s 0)) ∧
    (realValue s.cfg.f.toNat a = realValue s.cfg.f.toNat b →
      exec (.cmpeq a b) s = .next (answered s 1)) ∧
    (realValue s.cfg.f.toNat a ≠ realValue s.cfg.f.toNat b →
      exec (.cmpeq a b) s = .next (answered s 0))

/-! ## Conversions -/

/-- 46_conversion R93: FROMF of every binary32 word. -/
def Obligations.FromfEncodesExactly : Prop :=
  ∀ (s : State) (x : Word32), Inv s → ∀ (sign E8 fr : Nat),
    sign = x.toNat / 2 ^ 31 → E8 = x.toNat / 2 ^ 23 % 2 ^ 8 → fr = x.toNat % 2 ^ 23 →
    encode (.fromf x) = wordOf 0x30 x.toNat 0 ∧
    (E8 = 255 → exec (.fromf x) s = .next (answered s 0x8000)) ∧
    (E8 = 0 → fr = 0 → exec (.fromf x) s = .next (answered s 0x0000)) ∧
    (E8 = 0 → ∀ p : Nat, 2 ^ p ≤ fr → fr < 2 ^ (p + 1) →
      exec (.fromf x) s = .next (answered s (clampedWord sign
        (((p : Int) - 149) * gridOf s + roundIndex s (fr * 2 ^ (32 - p) - 2 ^ 32) + 16384)))) ∧
    (E8 ≠ 0 → E8 ≠ 255 →
      exec (.fromf x) s = .next (answered s (clampedWord sign
        (((E8 : Int) - 127) * gridOf s + roundIndex s (fr * 2 ^ 9) + 16384))))

/-- 46_conversion R94: TOF of every pattern; no Finite pattern gives an infinity or a NaN. -/
def Obligations.TofRoundsOnce : Prop :=
  ∀ (s : State) (a : Packed), Inv s →
    encode (.tof a) = wordOf 0x31 a.toNat 0 ∧
    (a = 0x0000 → exec (.tof a) s = .next (answered s 0x00000000)) ∧
    (a = 0x8000 → exec (.tof a) s = .next (answered s 0x7FC00000)) ∧
    (isFinite a → ∀ (e : Int) (N : Nat),
      e = expOf a / gridOf s → N = 2 ^ 32 + tableE s (expOf a % gridOf s).toNat →
      (-126 ≤ e → e ≤ 127 ∧ nearestEven N (2 ^ 9) < 2 ^ 24 ∧
        exec (.tof a) s = .next (answered s (BitVec.ofNat 32 (signNat a * 2 ^ 31 +
          (e + 127).toNat * 2 ^ 23 + (nearestEven N (2 ^ 9) - 2 ^ 23))))) ∧
      (e < -126 → s.cfg.f = 7 ∧ (e = -127 ∨ e = -128) ∧
        exec (.tof a) s = .next (answered s (BitVec.ofNat 32 (signNat a * 2 ^ 31 +
          nearestEven N (2 ^ (-117 - e).toNat))))))

/-- 46_conversion R95: FROMI of every integer, by its sign and magnitude. -/
def Obligations.FromiEncodesExactly : Prop :=
  ∀ (s : State) (n : Word32), Inv s →
    encode (.fromi n) = wordOf 0x32 n.toNat 0 ∧
    (n = 0 → exec (.fromi n) s = .next (answered s 0x0000)) ∧
    (∀ p : Nat, 2 ^ p ≤ n.toInt.natAbs → n.toInt.natAbs < 2 ^ (p + 1) →
      exec (.fromi n) s = .next (answered s (clampedWord (if n.toInt < 0 then 1 else 0)
        (p * gridOf s + roundIndex s (n.toInt.natAbs * 2 ^ (32 - p) - 2 ^ 32) + 16384))))

/-- 46_conversion R96: TOI of every pattern. -/
def Obligations.ToiRoundsAndSaturates : Prop :=
  ∀ (s : State) (a : Packed), Inv s →
    encode (.toi a) = wordOf 0x33 a.toNat 0 ∧
    (a = 0x0000 → exec (.toi a) s = .next (answered s 0x00000000)) ∧
    (a = 0x8000 → exec (.toi a) s = .next (answered s 0x80000000)) ∧
    (isFinite a → ∀ (e : Int) (N : Nat) (r : Int),
      e = expOf a / gridOf s → N = 2 ^ 32 + tableE s (expOf a % gridOf s).toNat →
      r = (if 32 ≤ e then N * 2 ^ (e - 32).toNat else nearestEven N (2 ^ (32 - e).toNat) : Nat) →
      exec (.toi a) s = .next (answered s (BitVec.ofInt 32
        (max (-2 ^ 31) (min (2 ^ 31 - 1) (if signNat a = 1 then -r else r))))))

/-- 46_conversion R97: under every configuration, a pattern (NaR and Zero among them) that TOF turns
into a binary32 number comes back from FROMF bit for bit. -/
def Obligations.FloatRoundTrip : Prop :=
  ∀ (s : State) (a : Packed), Inv s →
    ∃ v, exec (.tof a) s = .next (answered s v) ∧ exec (.fromf v) s = .next (answered s (inR a))

/-! ## The printed form -/

/-- 30_encoding R41: one sign digit, I digits, f digits, separated by single spaces, and together the
sixteen bits of the pattern. -/
def Obligations.PrintedValueGroupsTheBits : Prop :=
  ∀ (c : Cfg) (x : Packed), legalFrac c.f →
    (printedValue c x).length = 18 ∧
    (printedValue c x)[1]? = some ' ' ∧ (printedValue c x)[17 - c.f.toNat]? = some ' ' ∧
    (printedValue c x).filter (· ≠ ' ') = binaryDigits 16 x.toNat
end

