-- ==== Sys2Proof/Laws/State.lean ====
section
/-! SUPPORT. One lemma per field for each update of the state, all true by rfl, and what the updates
are when written out. -/

namespace Sys2Proof.Machine

variable (s : State) (r : Response) (v : Word32) (x : CommandFault) (c : Cfg) (w : Word64)
  (why : Illegal)

@[simp] theorem answer_cfg : (answer r s).cfg = s.cfg := rfl
@[simp] theorem answer_lut : (answer r s).lut = s.lut := rfl
@[simp] theorem answer_inputs : (answer r s).inputs = s.inputs.tail := rfl
@[simp] theorem answer_responses : (answer r s).responses = s.responses ++ [r] := rfl

@[simp] theorem respond_cfg : (respond v s).cfg = s.cfg := rfl
@[simp] theorem respond_lut : (respond v s).lut = s.lut := rfl
@[simp] theorem respond_inputs : (respond v s).inputs = s.inputs.tail := rfl
@[simp] theorem respond_responses :
    (respond v s).responses = s.responses ++ [.result v false] := rfl

@[simp] theorem respondNotice_cfg : (respondNotice v s).cfg = s.cfg := rfl
@[simp] theorem respondNotice_lut : (respondNotice v s).lut = s.lut := rfl
@[simp] theorem respondNotice_inputs : (respondNotice v s).inputs = s.inputs.tail := rfl
@[simp] theorem respondNotice_responses :
    (respondNotice v s).responses = s.responses ++ [.result v true] := rfl

@[simp] theorem raiseFault_cfg : (raiseFault x s).cfg = s.cfg := rfl
@[simp] theorem raiseFault_lut : (raiseFault x s).lut = s.lut := rfl
@[simp] theorem raiseFault_inputs : (raiseFault x s).inputs = s.inputs.tail := rfl
@[simp] theorem raiseFault_responses :
    (raiseFault x s).responses = s.responses ++ [.fault x] := rfl

@[simp] theorem rejectWord_cfg : (rejectWord why s).cfg = s.cfg := rfl
@[simp] theorem rejectWord_lut : (rejectWord why s).lut = s.lut := rfl
@[simp] theorem rejectWord_inputs : (rejectWord why s).inputs = s.inputs.tail := rfl
@[simp] theorem rejectWord_responses :
    (rejectWord why s).responses = s.responses ++ [.fault .illegalCommand] := rfl

@[simp] theorem reconfigure_cfg : (reconfigure c s).cfg = c := rfl
@[simp] theorem reconfigure_lut : (reconfigure c s).lut = rebuild c.f c.rmode := rfl
@[simp] theorem reconfigure_inputs : (reconfigure c s).inputs = s.inputs := rfl
@[simp] theorem reconfigure_responses : (reconfigure c s).responses = s.responses := rfl

@[simp] theorem resetUnit_cfg : (resetUnit s).cfg = State.reset.cfg := rfl
@[simp] theorem resetUnit_lut : (resetUnit s).lut = State.reset.lut := rfl
@[simp] theorem resetUnit_inputs : (resetUnit s).inputs = s.inputs.tail := rfl
@[simp] theorem resetUnit_responses : (resetUnit s).responses = s.responses := rfl

@[simp] theorem present_cfg : (present w s).cfg = s.cfg := rfl
@[simp] theorem present_lut : (present w s).lut = s.lut := rfl
@[simp] theorem present_inputs : (present w s).inputs = .command w :: s.inputs := rfl
@[simp] theorem present_responses : (present w s).responses = s.responses := rfl

@[simp] theorem idle_eq : idle s = s := rfl
/-- There is one command port, and the unit accepts the first input at it (00_scope R6, 20_memory
R25). -/
theorem commandPorts_toList : (commandPorts s).toList = [s.inputs] := rfl
@[simp] theorem accept_eq : accept s = s.inputs.head? := rfl
@[simp] theorem accept_present : accept (present w s) = some (.command w) := rfl

@[simp] theorem reset_cfg : State.reset.cfg = ⟨8, .lin⟩ := rfl
@[simp] theorem reset_lut : State.reset.lut = rebuild 8 .lin := rfl
@[simp] theorem reset_inputs : State.reset.inputs = [] := rfl
@[simp] theorem reset_responses : State.reset.responses = [] := rfl

/-- A response changes the port's two fields and nothing else. -/
theorem answer_eq : answer r s = { s with inputs := s.inputs.tail, responses := s.responses ++ [r] } :=
  rfl

theorem respond_eq_answer : respond v s = answer (.result v false) s := rfl
theorem respondNotice_eq_answer : respondNotice v s = answer (.result v true) s := rfl
theorem raiseFault_eq_answer : raiseFault x s = answer (.fault x) s := rfl
theorem rejectWord_eq_answer : rejectWord why s = answer (.fault .illegalCommand) s := rfl

end Sys2Proof.Machine
end

