-- ==== Sys2Proof/Laws/Codec.lean ====
section
/-! SUPPORT. What the codec's operations do: unpacking by cases, the bits of a pattern, the clamp, and
the two roundings that need no table. -/

namespace Sys2Proof.Machine

open Sys2Proof.Config

@[simp] theorem intBits_eq (c : Cfg) : c.intBits = 15 - c.f := rfl

@[simp] theorem unpack_zero : unpack 0x0000 = .zero := rfl
@[simp] theorem unpack_nar : unpack 0x8000 = .nar := rfl

/-- `Unpack` of a Finite pattern (42_codec R60). -/
theorem unpack_finite {x : Packed} (h : isFinite x) :
    unpack x = .finite (signOf x) ((magnitudeOf x).toNat - 16384) := by
  have h0 : ¬ x = patternZero := h.1
  have h8 : ¬ x = patternNaR := h.2
  rw [unpack, if_neg h0, if_neg h8]

/-- A pattern is Zero, NaR or Finite. -/
theorem unpack_cases (x : Packed) :
    (x = 0x0000 ∧ unpack x = .zero) ∨ (x = 0x8000 ∧ unpack x = .nar) ∨
    (isFinite x ∧ unpack x = .finite (signOf x) ((magnitudeOf x).toNat - 16384)) := by
  by_cases h0 : x = 0x0000
  · exact .inl ⟨h0, by rw [h0]; rfl⟩
  · by_cases h8 : x = 0x8000
    · exact .inr (.inl ⟨h8, by rw [h8]; rfl⟩)
    · exact .inr (.inr ⟨⟨h0, h8⟩, unpack_finite ⟨h0, h8⟩⟩)

/-- The sign bit and the magnitude field as numbers (10_state R14). -/
theorem signOf_eq (x : Packed) : signOf x = decide (2 ^ 15 ≤ x.toNat) := by
  have hx := x.isLt
  simp only [signOf, BitVec.getLsbD, Nat.testBit_eq_decide_div_mod_eq]
  by_cases h : 2 ^ 15 ≤ x.toNat <;> simp only [h, decide_true, decide_false] <;> simp <;> omega

theorem magnitudeOf_toNat (x : Packed) : (magnitudeOf x).toNat = x.toNat % 2 ^ 15 := by
  simp [magnitudeOf, BitVec.extractLsb'_toNat]

/-- A pattern is its sign bit and its magnitude field (10_state R14). -/
theorem packed_toNat (x : Packed) :
    x.toNat = (signOf x).toNat * 2 ^ 15 + (magnitudeOf x).toNat := by
  have hx := x.isLt
  rw [signOf_eq, magnitudeOf_toNat]
  by_cases h : 2 ^ 15 ≤ x.toNat <;> simp only [h, decide_true, decide_false] <;> simp <;> omega

/-- "A Finite pattern has `1 <= M <= 32767`" (42_codec R62). -/
theorem isFinite_iff (x : Packed) : isFinite x ↔ 1 ≤ (magnitudeOf x).toNat := by
  have hx := x.isLt
  have h0 : x = 0x0000 ↔ x.toNat = 0 := by rw [← BitVec.toNat_inj]; rfl
  have h8 : x = 0x8000 ↔ x.toNat = 2 ^ 15 := by rw [← BitVec.toNat_inj]; rfl
  rw [isFinite, ne_eq, ne_eq, h0, h8, magnitudeOf_toNat]
  omega

theorem magnitudeOf_lt (x : Packed) : (magnitudeOf x).toNat ≤ 32767 := by
  have := (magnitudeOf x).isLt
  omega

theorem saturate_le (K : Int) : saturate K ≤ 16383 := by unfold saturate KMAX KMIN; omega
theorem le_saturate (K : Int) : -16383 ≤ saturate K := by unfold saturate KMAX KMIN; omega

/-- The clamp leaves an exponent in range as it is (42_codec R63). -/
theorem saturate_of_mem {K : Int} (h : -16383 ≤ K) (h' : K ≤ 16383) : saturate K = K := by
  unfold saturate KMAX KMIN; omega

/-- The clamp as a minimum and a maximum (42_codec R63). -/
theorem saturate_eq (K : Int) : saturate K = max (-16383) (min 16383 K) := by
  unfold saturate KMAX KMIN; omega

/-- The bits of the pattern with sign s and exponent K (42_codec R65). -/
theorem pattern_toNat {K : Int} (h : -16383 ≤ K) (h' : K ≤ 16383) (s : Bool) :
    (pattern s K).toNat = s.toNat * 2 ^ 15 + (K + 16384).toNat := by
  have hm : (BitVec.ofInt 15 (K + KBIAS)).toNat = (K + 16384).toNat := by
    simp only [BitVec.toNat_ofInt, KBIAS]; omega
  have hlt : (K + 16384).toNat < 2 ^ 15 := by omega
  rw [pattern, BitVec.toNat_append, hm, Nat.shiftLeft_eq, Nat.mul_comm,
    ← Nat.two_pow_add_eq_or_of_lt hlt]
  cases s <;> simp

theorem signOf_pattern {K : Int} (h : -16383 ≤ K) (h' : K ≤ 16383) (s : Bool) :
    signOf (pattern s K) = s := by
  rw [signOf_eq, pattern_toNat h h']
  cases s
  · simp; omega
  · simp

theorem magnitudeOf_pattern {K : Int} (h : -16383 ≤ K) (h' : K ≤ 16383) (s : Bool) :
    (magnitudeOf (pattern s K)).toNat = (K + 16384).toNat := by
  rw [magnitudeOf_toNat, pattern_toNat h h']
  cases s <;> simp <;> omega

/-- `Pack` under the parameter UNDERFLOW = saturate (42_codec R65). -/
theorem pack_eq (s : Bool) (K : Int) : pack s K = pattern s (saturate K) := rfl

theorem roundHalf_even (m : RMode) {K2 : Int} (h : K2 % 2 = 0) : roundHalf m K2 = K2 / 2 := by
  simp [roundHalf, h]

theorem roundHalf_odd_lin {K2 : Int} (h : K2 % 2 = 1) : roundHalf .lin K2 = (K2 - 1) / 2 := by
  simp [roundHalf, h]

theorem roundHalf_odd_log {K2 : Int} (h : K2 % 2 = 1) :
    roundHalf .log K2 = if (K2 - 1) / 2 % 2 = 0 then (K2 - 1) / 2 else (K2 - 1) / 2 + 1 := by
  simp [roundHalf, h]

/-- `RneShift` to the left is exact (46_conversion R92). -/
theorem rneShift_nonpos (N : Nat) {r : Int} (h : r ≤ 0) : rneShift N r = N * 2 ^ (-r).toNat := by
  simp [rneShift, h, Nat.shiftLeft_eq]

/-- `RneShift` to the right, by quotient and remainder (46_conversion R92). -/
theorem rneShift_pos (N n : Nat) (h : 0 < n) :
    rneShift N n =
      if N % 2 ^ n > 2 ^ (n - 1) ∨ (N % 2 ^ n = 2 ^ (n - 1) ∧ N / 2 ^ n % 2 = 1)
      then N / 2 ^ n + 1 else N / 2 ^ n := by
  rw [rneShift, if_neg (by omega : ¬ (n : Int) ≤ 0)]
  simp only [Int.toNat_natCast, Nat.shiftRight_eq_div_pow]

end Sys2Proof.Machine
end

