-- ==== Sys2Proof/Laws/Conversion.lean ====
section
/-! SUPPORT. The linear side in numbers: what the fields of a binary32 word and of an int32 word are,
what FROMF reads, and what the words TOF and TOI give are. -/

namespace Sys2Proof.Machine

open Sys2Proof.Config

@[simp] theorem linfloat_expBits : LINFLOAT.expBits = 8 := rfl
@[simp] theorem linfloat_fracBits : LINFLOAT.fracBits = 23 := rfl
@[simp] theorem linfloat_width : LINFLOAT.width = 32 := rfl
@[simp] theorem linfloat_bias : LINFLOAT.bias = 127 := rfl
@[simp] theorem linfloat_expMax : LINFLOAT.expMax = 255 := rfl
@[simp] theorem linint_width : LININT.width = 32 := rfl
@[simp] theorem linint_bound : LININT.bound = 2 ^ 31 := rfl

variable (x n : Word32)

/-- The sign bit of a 32-bit word. -/
theorem getLsbD_31 : x.getLsbD 31 = decide (2 ^ 31 ≤ x.toNat) := by
  have hx := x.isLt
  simp only [BitVec.getLsbD, Nat.testBit_eq_decide_div_mod_eq]
  by_cases h : 2 ^ 31 ≤ x.toNat <;> simp only [h, decide_true, decide_false] <;> simp <;> omega

/-- The fields of a binary32 word as numbers (46_conversion R93). -/
theorem floatSign_eq : floatSign x = decide (2 ^ 31 ≤ x.toNat) := getLsbD_31 x

theorem floatExponent_eq : floatExponent x = x.toNat / 2 ^ 23 % 2 ^ 8 := by
  simp [floatExponent, BitVec.extractLsb'_toNat, Nat.shiftRight_eq_div_pow]

theorem floatFraction_eq : floatFraction x = x.toNat % 2 ^ 23 := by
  simp [floatFraction, BitVec.extractLsb'_toNat]

/-- FROMF's reading of a word by its exponent and fraction fields (46_conversion R93). -/
theorem readFloat_eq :
    readFloat x =
      if floatExponent x = 255 then .notReal
      else if floatExponent x = 0 ∧ floatFraction x = 0 then .zero
      else if floatExponent x = 0 then
        .number (floatSign x) ((Nat.log2 (floatFraction x) : Int) - 149)
          (floatFraction x <<< (32 - Nat.log2 (floatFraction x)))
      else .number (floatSign x) ((floatExponent x : Int) - 127) ((2 ^ 23 + floatFraction x) <<< 9) :=
  rfl

/-- The sign and the magnitude of an int32 word (46_conversion R95). -/
theorem intSign_eq : intSign n = decide (n.toInt < 0) := by
  have hn := n.isLt
  rw [show intSign n = n.getLsbD 31 from rfl, getLsbD_31, decide_eq_decide, BitVec.toInt_eq_toNat_cond]
  split <;> omega

theorem intMagnitude_eq : intMagnitude n = n.toInt.natAbs := by
  have hn := n.isLt
  simp only [intMagnitude, show intSign n = n.getLsbD 31 from rfl, getLsbD_31,
    BitVec.toInt_eq_toNat_cond, linint_width, decide_eq_true_eq]
  split <;> split <;> omega

/-- The word of three fields that fit their widths (46_conversion R94). -/
theorem floatWord_eq (s : Bool) {E8 fr : Nat} (hE : E8 < 2 ^ 8) (hf : fr < 2 ^ 23) :
    floatWord s E8 fr = BitVec.ofNat 32 (s.toNat * 2 ^ 31 + E8 * 2 ^ 23 + fr) := by
  simp only [floatWord, linfloat_width, linfloat_expBits, linfloat_fracBits, Nat.mod_eq_of_lt hE,
    Nat.mod_eq_of_lt hf]

/-- The word of a normal result in range (46_conversion R94). -/
theorem floatNormal_eq (s : Bool) {e : Int} {m24 : Nat} (h : -126 ≤ e) (h' : e ≤ 127)
    (hm : m24 < 2 ^ 24) (hm' : 2 ^ 23 ≤ m24) :
    floatNormal s e m24 =
      BitVec.ofNat 32 (s.toNat * 2 ^ 31 + (e + 127).toNat * 2 ^ 23 + (m24 - 2 ^ 23)) := by
  rw [floatNormal, linfloat_bias, linfloat_fracBits, if_neg (by omega)]
  exact floatWord_eq s (by omega) (by omega)

/-- A subnormal result fills the 31 bits below the sign (46_conversion R94). -/
theorem floatWord_subnormal (s : Bool) {m : Nat} (h : m < 2 ^ 31) :
    floatWord s (m / 2 ^ LINFLOAT.fracBits) m = BitVec.ofNat 32 (s.toNat * 2 ^ 31 + m) := by
  simp only [floatWord, linfloat_width, linfloat_expBits, linfloat_fracBits]
  rw [Nat.add_assoc, show m / 2 ^ 23 % 2 ^ 8 * 2 ^ 23 + m % 2 ^ 23 = m by omega]

/-- The saturation to int32 as a minimum and a maximum (46_conversion R96). -/
theorem clampInt_eq (v : Int) : clampInt v = max (-2 ^ 31) (min (2 ^ 31 - 1) v) := by
  simp only [clampInt, linint_bound]
  omega

end Sys2Proof.Machine
end

