-- ==== Sys2Proof/Laws/Decode.lean ====
section
/-! SUPPORT. The small lemmas of the command word: each field of a word put together from its fields,
and what each operand format accepts. -/

namespace Sys2Proof

variable (op rsv : BitVec 8) (b : Packed) (a : Word32) (h l : BitVec 16)

theorem fieldOp_commandWord : fieldOp (commandWord op rsv b a) = op := by
  ext i hi
  simp only [fieldOp, commandWord, BitVec.getElem_extractLsb', BitVec.getLsbD_append]
  grind

theorem fieldRsv_commandWord : fieldRsv (commandWord op rsv b a) = rsv := by
  ext i hi
  simp only [fieldRsv, commandWord, BitVec.getElem_extractLsb', BitVec.getLsbD_append]
  grind

theorem fieldB_commandWord : fieldB (commandWord op rsv b a) = b := by
  ext i hi
  simp only [fieldB, commandWord, BitVec.getElem_extractLsb', BitVec.getLsbD_append]
  grind

theorem fieldA_commandWord : fieldA (commandWord op rsv b a) = a := by
  ext i hi
  simp only [fieldA, commandWord, BitVec.getElem_extractLsb', BitVec.getLsbD_append]
  grind

theorem fieldAHigh_commandWord : fieldAHigh (commandWord op rsv b (h ++ l)) = h := by
  ext i hi
  simp only [fieldAHigh, commandWord, BitVec.getElem_extractLsb', BitVec.getLsbD_append]
  grind

theorem fieldALow_commandWord : fieldALow (commandWord op rsv b (h ++ l)) = l := by
  ext i hi
  simp only [fieldALow, commandWord, BitVec.getElem_extractLsb', BitVec.getLsbD_append]
  grind

/-- A word is put together from its four fields. -/
theorem commandWord_fields (c : Word64) :
    commandWord (fieldOp c) (fieldRsv c) (fieldB c) (fieldA c) = c := by
  ext i hi
  simp only [commandWord, fieldOp, fieldRsv, fieldB, fieldA]
  grind

/-- The field A is put together from its two halves. -/
theorem fieldA_halves (c : Word64) : fieldAHigh c ++ fieldALow c = fieldA c := by
  ext i hi
  simp only [fieldAHigh, fieldALow, fieldA, BitVec.getElem_append, BitVec.getElem_extractLsb']
  grind

/-- The bitwise AND of two words, field by field. -/
theorem commandWord_and (op' rsv' : BitVec 8) (b' : Packed) (a' : Word32) :
    commandWord op rsv b a &&& commandWord op' rsv' b' a' =
      commandWord (op &&& op') (rsv &&& rsv') (b &&& b') (a &&& a') := by
  ext i hi
  simp only [commandWord, BitVec.getElem_and]
  grind

/-- The bitwise AND of two 32-bit fields, half by half. -/
theorem halves_and (h' l' : BitVec 16) :
    ((h ++ l : Word32) &&& (h' ++ l' : Word32)) = (h &&& h') ++ (l &&& l') := by
  ext i hi
  simp only [BitVec.getElem_and]
  grind

/-- The masks of 30_encoding R32 as fields: a mask keeps OP and the format's must-be-zero fields. -/
theorem formatMask_n : formatMask .n = commandWord 0xFF 0xFF 0xFFFF (0xFFFF#16 ++ 0xFFFF#16) := by
  decide
theorem formatMask_u16 : formatMask .u16 = commandWord 0xFF 0xFF 0xFFFF (0xFFFF#16 ++ 0#16) := by
  decide
theorem formatMask_u32 : formatMask .u32 = commandWord 0xFF 0xFF 0xFFFF (0#16 ++ 0#16) := by
  decide
theorem formatMask_b16 : formatMask .b16 = commandWord 0xFF 0xFF 0 (0xFFFF#16 ++ 0#16) := by
  decide

/-- Two words are equal when their four fields are. -/
theorem commandWord_inj (op' rsv' : BitVec 8) (b' : Packed) (a' : Word32) :
    commandWord op rsv b a = commandWord op' rsv' b' a' ↔
      op = op' ∧ rsv = rsv' ∧ b = b' ∧ a = a' := by
  constructor
  · intro h
    exact ⟨by simpa [fieldOp_commandWord] using congrArg fieldOp h, by simpa [fieldRsv_commandWord] using congrArg fieldRsv h,
      by simpa [fieldB_commandWord] using congrArg fieldB h, by simpa [fieldA_commandWord] using congrArg fieldA h⟩
  · rintro ⟨rfl, rfl, rfl, rfl⟩; rfl

theorem takeN_eq_ok (c : Word64) (i j : Instr) :
    takeN c i = .ok j ↔ fieldRsv c = 0 ∧ fieldB c = 0 ∧ fieldA c = 0 ∧ i = j := by
  unfold takeN; grind

theorem takeU16_eq_ok (c : Word64) (i : Packed → Instr) (j : Instr) :
    takeU16 c i = .ok j ↔
      fieldRsv c = 0 ∧ fieldB c = 0 ∧ fieldAHigh c = 0 ∧ i (fieldALow c) = j := by
  unfold takeU16; grind

theorem takeU32_eq_ok (c : Word64) (i : Word32 → Instr) (j : Instr) :
    takeU32 c i = .ok j ↔ fieldRsv c = 0 ∧ fieldB c = 0 ∧ i (fieldA c) = j := by
  unfold takeU32; grind

theorem takeB16_eq_ok (c : Word64) (i : Packed → Packed → Instr) (j : Instr) :
    takeB16 c i = .ok j ↔ fieldRsv c = 0 ∧ fieldAHigh c = 0 ∧ i (fieldALow c) (fieldB c) = j := by
  unfold takeB16; grind

end Sys2Proof
end

