-- ==== Sys2Proof/Laws/Lut.lean ====
section
/-! SUPPORT. What the table's generator and its two lookups do: the search finds the greatest integer
that passes the test of 41_lut R51, the arrays have F entries, and a rebuilt table is read without a
free value. -/

namespace Sys2Proof.Machine

open Sys2Proof.Config

theorem notAbove_iff (q p x : Nat) :
    notAbove q p x = true ↔ (2 * (2 ^ 32 + x) - 1) ^ q ≤ 2 ^ (33 * q + p) := by
  simp [notAbove, W]

theorem not_notAbove_iff (q p x : Nat) :
    notAbove q p x = false ↔ 2 ^ (33 * q + p) < (2 * (2 ^ 32 + x) - 1) ^ q := by
  rw [← Bool.not_eq_true, notAbove_iff, not_le]

/-- The test fails from some integer on. -/
theorem notAbove_antitone {q p x y : Nat} (h : x ≤ y) (hy : notAbove q p y = true) :
    notAbove q p x = true := by
  rw [notAbove_iff] at *
  exact (Nat.pow_le_pow_left (by omega) q).trans hy

theorem notAbove_zero (q p : Nat) : notAbove q p 0 = true := by
  rw [notAbove_iff]
  calc (2 * (2 ^ 32 + 0) - 1) ^ q ≤ (2 ^ 33) ^ q := Nat.pow_le_pow_left (by norm_num) q
    _ = 2 ^ (33 * q) := by rw [← pow_mul]
    _ ≤ 2 ^ (33 * q + p) := Nat.pow_le_pow_right (by norm_num) (by omega)

/-- The search from `x` over `n` bits finds the greatest integer below `x + 2^n` that passes. -/
theorem searchEntry_spec (q p : Nat) (n : Nat) : ∀ x, notAbove q p x = true →
    x ≤ searchEntry q p n x ∧ searchEntry q p n x < x + 2 ^ n ∧
    notAbove q p (searchEntry q p n x) = true ∧
    (searchEntry q p n x + 1 < x + 2 ^ n → notAbove q p (searchEntry q p n x + 1) = false) := by
  induction n with
  | zero => intro x hx; simp [searchEntry, hx]
  | succ n ih =>
    intro x hx
    rw [searchEntry]
    have h2 : 2 ^ (n + 1) = 2 ^ n + 2 ^ n := by rw [pow_succ]; omega
    cases h : notAbove q p (x + 2 ^ n) with
    | true =>
      obtain ⟨h0, h1, hp, hn⟩ := ih _ h
      dsimp only
      exact ⟨by omega, by omega, hp, fun hlt => hn (by omega)⟩
    | false =>
      obtain ⟨h0, h1, hp, hn⟩ := ih _ hx
      dsimp only
      refine ⟨h0, by omega, hp, fun _ => ?_⟩
      by_cases hlt : searchEntry q p n x + 1 < x + 2 ^ n
      · exact hn hlt
      · have : searchEntry q p n x + 1 = x + 2 ^ n := by omega
        simpa [this] using h

theorem nearestEntry_lt (q p : Nat) : nearestEntry q p < 2 ^ 32 := by
  have := (searchEntry_spec q p W 0 (notAbove_zero q p)).2.1
  simpa [nearestEntry, W] using this

/-- `2^32` fails the test: the entry is less than the next octave. -/
theorem notAbove_top {q p : Nat} (hp : p < q) (hq : q ≤ 4096) : notAbove q p (2 ^ 32) = false := by
  rw [not_notAbove_iff]
  have hb : (2 : ℝ) ^ (33 * q + p) < ((2 ^ 34 - 1 : ℕ) : ℝ) ^ q := by
    have h1 : (1 : ℝ) + q * (-(1 / 2 ^ 34)) ≤ (1 + -(1 / 2 ^ 34)) ^ q :=
      one_add_mul_le_pow (by norm_num) q
    have h2 : (1 : ℝ) / 2 < (1 + -(1 / 2 ^ 34)) ^ q := by
      have : (q : ℝ) ≤ 4096 := by exact_mod_cast hq
      refine lt_of_lt_of_le ?_ h1
      norm_num; linarith
    have h3 : ((2 ^ 34 - 1 : ℕ) : ℝ) = 2 ^ 34 * (1 + -(1 / 2 ^ 34)) := by norm_num
    rw [h3, mul_pow, ← pow_mul]
    calc (2 : ℝ) ^ (33 * q + p) ≤ 2 ^ (34 * q - 1) := pow_le_pow_right₀ (by norm_num) (by omega)
      _ = 2 ^ (34 * q) * (1 / 2) := by
        rw [show 34 * q = (34 * q - 1) + 1 by omega, pow_succ]; simp
      _ < 2 ^ (34 * q) * (1 + -(1 / 2 ^ 34)) ^ q := by
        exact mul_lt_mul_of_pos_left h2 (by positivity)
  have : (2 * (2 ^ 32 + 2 ^ 32) - 1 : ℕ) = 2 ^ 34 - 1 := by norm_num
  rw [this]
  exact_mod_cast hb

/-- The entry is the one integer that passes the test and whose successor does not (41_lut R51,
R53). -/
theorem nearestEntry_spec {q p : Nat} (hp : p < q) (hq : q ≤ 4096) :
    notAbove q p (nearestEntry q p) = true ∧ notAbove q p (nearestEntry q p + 1) = false := by
  obtain ⟨-, h1, h2, h3⟩ := searchEntry_spec q p W 0 (notAbove_zero q p)
  refine ⟨h2, ?_⟩
  by_cases h : searchEntry q p W 0 + 1 < 0 + 2 ^ W
  · exact h3 h
  · have : nearestEntry q p + 1 = 2 ^ 32 := by
      have h1' : nearestEntry q p < 0 + 2 ^ 32 := h1
      have h' : ¬ nearestEntry q p + 1 < 0 + 2 ^ 32 := h
      omega
    rw [this]; exact notAbove_top hp hq

theorem gridPoints_pos (f : BitVec 4) : 0 < gridPoints f := Nat.two_pow_pos _

theorem gridPoints_le {f : BitVec 4} (h : legalFrac f) : gridPoints f ≤ 2048 := by
  have := Nat.pow_le_pow_right (n := 2) (by norm_num) h.2
  simpa [gridPoints] using this

/-- The entries in use fit the physical array (10_state R12). -/
theorem gridPoints_le_lutsize {f : BitVec 4} (h : legalFrac f) : gridPoints f ≤ LUTSIZE :=
  gridPoints_le h

theorem le_gridPoints {f : BitVec 4} (h : legalFrac f) : 128 ≤ gridPoints f := by
  have := Nat.pow_le_pow_right (n := 2) (by norm_num) h.1
  simpa [gridPoints] using this

@[simp] theorem rebuild_exp2t_length (f : BitVec 4) (m : RMode) :
    (rebuild f m).exp2t.length = gridPoints f := by simp [rebuild]

@[simp] theorem rebuild_log2t_length (f : BitVec 4) (m : RMode) :
    (rebuild f m).log2t.length = gridPoints f := by simp [rebuild]

/-- The exp2 array does not depend on the mode (41_lut R51). -/
theorem rebuild_exp2t_mode (f : BitVec 4) (m m' : RMode) :
    (rebuild f m).exp2t = (rebuild f m').exp2t := rfl

/-- An entry of a rebuilt exp2 array, as the unit reads it. -/
theorem exp2Entry_rebuild {f : BitVec 4} (m : RMode) {i : Nat} (h : i < gridPoints f) :
    (exp2Entry (rebuild f m) i).toNat = exp2Value (gridPoints f) i := by
  have hlt : exp2Value (gridPoints f) i < 4294967296 := nearestEntry_lt _ _
  simpa [exp2Entry, rebuild, h] using hlt

/-- `Exp2Lookup` of a rebuilt table (41_lut R55). -/
theorem exp2Lookup_rebuild {f : BitVec 4} (m : RMode) {i : Nat} (h : i < gridPoints f) :
    exp2Lookup (rebuild f m) i = 2 ^ 32 + exp2Value (gridPoints f) i := by
  rw [exp2Lookup, exp2Entry_rebuild m h]

/-- A rebuilt table is read without a free value. -/
theorem log2Entries_rebuild (f : BitVec 4) (m : RMode) :
    log2Entries (rebuild f m) (gridPoints f) = (rebuild f m).log2t := by
  simp [log2Entries, List.take_of_length_le]

/-- `Log2Lookup` answers a number of indices (41_lut R56). -/
theorem log2Lookup_le (f : BitVec 4) (m : RMode) (x : Nat) :
    log2Lookup (rebuild f m) (gridPoints f) x ≤ gridPoints f := by
  rw [log2Lookup, log2Entries_rebuild]
  exact List.countP_le_length.trans (rebuild_log2t_length f m).le

end Sys2Proof.Machine
end

