-- ==== Sys2Proof/Laws/Machine.lean ====
section
/-! SUPPORT. What each command answers, and the inversion of `exec` and of `step`: everything one step
can do. -/

namespace Sys2Proof.Machine

open Sys2Proof.Config

variable (s : State) (a b : Packed) (x : Word32)

@[simp] theorem exec_getcfg : exec .getcfg s = .next (respond (cfgWord s.cfg) s) := rfl
@[simp] theorem exec_setfrac : exec (.setfrac x) s = execSetfrac x s := rfl
@[simp] theorem exec_setrnd : exec (.setrnd x) s = execSetrnd x s := rfl
@[simp] theorem exec_mul :
    exec (.mul a b) s = .next (respond (packedResult (mulPacked a b)) s) := rfl
@[simp] theorem exec_div :
    exec (.div a b) s = .next (respond (packedResult (divPacked a b)) s) := rfl
@[simp] theorem exec_sqr : exec (.sqr a) s = .next (respond (packedResult (sqrPacked a)) s) := rfl
@[simp] theorem exec_sqrt : exec (.sqrt a) s = execSqrt a s := rfl
@[simp] theorem exec_inv : exec (.inv a) s = .next (respond (packedResult (invPacked a)) s) := rfl
@[simp] theorem exec_neg : exec (.neg a) s = .next (respond (packedResult (negPacked a)) s) := rfl
@[simp] theorem exec_add :
    exec (.add a b) s = .next (respond (packedResult (addPacked s.cfg s.lut a b)) s) := rfl
@[simp] theorem exec_sub :
    exec (.sub a b) s = .next (respond (packedResult (subPacked s.cfg s.lut a b)) s) := rfl
@[simp] theorem exec_cmpeq : exec (.cmpeq a b) s = execCmpeq a b s := rfl
@[simp] theorem exec_cmple : exec (.cmple a b) s = execCmple a b s := rfl
@[simp] theorem exec_cmplt : exec (.cmplt a b) s = execCmplt a b s := rfl
@[simp] theorem exec_cmpgt : exec (.cmpgt a b) s = execCmpgt a b s := rfl
@[simp] theorem exec_cmpge : exec (.cmpge a b) s = execCmpge a b s := rfl
@[simp] theorem exec_fromf :
    exec (.fromf x) s = .next (respond (packedResult (fromFloat s.cfg s.lut x)) s) := rfl
@[simp] theorem exec_tof : exec (.tof a) s = .next (respond (toFloat s.cfg s.lut a) s) := rfl
@[simp] theorem exec_fromi :
    exec (.fromi x) s = .next (respond (packedResult (fromInt s.cfg s.lut x)) s) := rfl
@[simp] theorem exec_toi : exec (.toi a) s = .next (respond (toInt s.cfg s.lut a) s) := rfl

/-- SETFRAC's operand is legal from 7 to 11 (40_config R46). -/
theorem fracOperand_eq_some (f : BitVec 4) :
    fracOperand x = some f ↔ (7 ≤ x.toNat ∧ x.toNat ≤ 11) ∧ f = BitVec.ofNat 4 x.toNat := by
  unfold fracOperand operandUnsigned
  split
  · simp; omega
  · simp only [Option.some.injEq]; constructor
    · rintro rfl; exact ⟨by omega, rfl⟩
    · rintro ⟨_, rfl⟩; rfl

theorem fracOperand_eq_none : fracOperand x = none ↔ x.toNat < 7 ∨ 11 < x.toNat := by
  unfold fracOperand operandUnsigned
  split
  · simp; omega
  · simp; omega

/-- A legal operand of SETFRAC is stored as it is. -/
theorem fracOperand_toNat {f : BitVec 4} (h : fracOperand x = some f) : f.toNat = x.toNat := by
  obtain ⟨h, rfl⟩ := (fracOperand_eq_some x f).1 h
  simp; omega

theorem fracOperand_legal {f : BitVec 4} (h : fracOperand x = some f) : legalFrac f := by
  rw [legalFrac, fracOperand_toNat x h]; exact ((fracOperand_eq_some x f).1 h).1

/-- SETRND's operand is legal if it is 0 or 1 (40_config R47). -/
theorem rmodeOperand_eq_some (m : RMode) :
    rmodeOperand x = some m ↔ (x.toNat = 0 ∧ m = .lin) ∨ (x.toNat = 1 ∧ m = .log) := by
  unfold rmodeOperand operandUnsigned
  cases m <;> split <;> simp <;> omega

theorem rmodeOperand_eq_none : rmodeOperand x = none ↔ 1 < x.toNat := by
  unfold rmodeOperand operandUnsigned
  split
  · simp; omega
  · split <;> simp <;> omega

/-- Everything a command can do: answer, or (SETFRAC and SETRND with a legal operand) reconfigure and
answer. It always gives a next state. -/
theorem exec_cases (i : Instr) :
    (∃ r, exec i s = .next (answer r s)) ∨
    (∃ n f, i = .setfrac n ∧ fracOperand n = some f ∧
      exec i s = .next (respondNotice 0 (reconfigure { s.cfg with f := f } s))) ∨
    (∃ m r, i = .setrnd m ∧ rmodeOperand m = some r ∧
      exec i s = .next (respond 0 (reconfigure { s.cfg with rmode := r } s))) := by
  cases i with
  | setfrac n =>
    cases h : fracOperand n with
    | none => exact .inl ⟨.fault .invalidFormat, by simp [execSetfrac, h, raiseFault]⟩
    | some f => exact .inr (.inl ⟨n, f, rfl, h, by simp [execSetfrac, h]⟩)
  | setrnd m =>
    cases h : rmodeOperand m with
    | none => exact .inl ⟨.fault .invalidRoundingMode, by simp [execSetrnd, h, raiseFault]⟩
    | some r => exact .inr (.inr ⟨m, r, rfl, h, by simp [execSetrnd, h]⟩)
  | sqrt a =>
    cases h : sqrtPacked s.cfg.rmode a with
    | none => exact .inl ⟨.fault .negativeRadicand, by simp [execSqrt, h, raiseFault]⟩
    | some r => exact .inl ⟨.result (packedResult r) false, by simp [execSqrt, h, respond]⟩
  | _ => exact .inl ⟨_, rfl⟩

/-- Everything one step can do: nothing is presented, a reset, a word that is no command, or a
command. -/
theorem step_cases :
    (s.inputs = [] ∧ step s = .next s) ∨
    (∃ rest, s.inputs = .reset :: rest ∧ step s = .next (resetUnit s)) ∨
    (∃ c rest why, s.inputs = .command c :: rest ∧ decode c = .error why ∧
      step s = .next (answer (.fault .illegalCommand) s)) ∨
    (∃ c rest i, s.inputs = .command c :: rest ∧ decode c = .ok i ∧ step s = exec i s) := by
  cases h : s.inputs with
  | nil => exact .inl ⟨rfl, by simp [step, accept_eq, h]⟩
  | cons e rest =>
    cases e with
    | reset => exact .inr (.inl ⟨rest, rfl, by simp [step, accept_eq, h]⟩)
    | command c =>
      cases hd : decode c with
      | error why =>
        exact .inr (.inr (.inl ⟨c, rest, why, rfl, hd, by simp [step, accept_eq, h, hd, rejectWord_eq_answer]⟩))
      | ok i => exact .inr (.inr (.inr ⟨c, rest, i, rfl, hd, by simp [step, accept_eq, h, hd]⟩))

end Sys2Proof.Machine
end

