-- ==== Sys2Proof/Laws/PerInstr.lean ====
section
/-! SUPPORT. One family of facts about every command as the encoder writes it: the word matches the
command's row of the opcode table (30_encoding R32). -/

namespace Sys2Proof.Laws.EncodeMatchesRow

/-- `encode i AND mask = match` for the row of `i` (30_encoding R32), and the row is in the table. -/
def Statement (i : Instr) : Prop := rowAdmits (rowOf i) (encode i) = true ∧ rowOf i ∈ opcodeTable

theorem mask8 (x : BitVec 8) : x &&& 0xFF = x := BitVec.and_allOnes
theorem mask16 (x : BitVec 16) : x &&& 0xFFFF = x := BitVec.and_allOnes

theorem wordN_row (op : BitVec 8) : rowAdmits ⟨op, .n⟩ (wordN op) = true := by
  rw [rowAdmits, rowMatch, wordN, beq_iff_eq, formatMask_n, commandWord_and, mask8]
  rfl

theorem wordU16_row (op : BitVec 8) (a : Packed) : rowAdmits ⟨op, .u16⟩ (wordU16 op a) = true := by
  rw [rowAdmits, rowMatch, wordU16, beq_iff_eq, formatMask_u16, commandWord_and, mask8, halves_and,
    BitVec.and_zero]
  rfl

theorem wordU32_row (op : BitVec 8) (x : Word32) : rowAdmits ⟨op, .u32⟩ (wordU32 op x) = true := by
  rw [rowAdmits, rowMatch, wordU32, beq_iff_eq, formatMask_u32, commandWord_and, mask8,
    show (0#16 ++ 0#16 : Word32) = 0#32 from rfl, BitVec.and_zero]
  rfl

theorem wordB16_row (op : BitVec 8) (a b : Packed) :
    rowAdmits ⟨op, .b16⟩ (wordB16 op a b) = true := by
  rw [rowAdmits, rowMatch, wordB16, beq_iff_eq, formatMask_b16, commandWord_and, mask8, halves_and,
    BitVec.and_zero, show b &&& (0 : Packed) = 0 from BitVec.and_zero]
  rfl

theorem getcfg : Statement .getcfg := ⟨wordN_row _, by simp [rowOf, opcodeTable]⟩
theorem setfrac (n : Word32) : Statement (.setfrac n) := ⟨wordU32_row _ _, by simp [rowOf, opcodeTable]⟩
theorem setrnd (m : Word32) : Statement (.setrnd m) := ⟨wordU32_row _ _, by simp [rowOf, opcodeTable]⟩
theorem mul (a b : Packed) : Statement (.mul a b) := ⟨wordB16_row _ _ _, by simp [rowOf, opcodeTable]⟩
theorem div (a b : Packed) : Statement (.div a b) := ⟨wordB16_row _ _ _, by simp [rowOf, opcodeTable]⟩
theorem sqr (a : Packed) : Statement (.sqr a) := ⟨wordU16_row _ _, by simp [rowOf, opcodeTable]⟩
theorem sqrt (a : Packed) : Statement (.sqrt a) := ⟨wordU16_row _ _, by simp [rowOf, opcodeTable]⟩
theorem inv (a : Packed) : Statement (.inv a) := ⟨wordU16_row _ _, by simp [rowOf, opcodeTable]⟩
theorem neg (a : Packed) : Statement (.neg a) := ⟨wordU16_row _ _, by simp [rowOf, opcodeTable]⟩
theorem add (a b : Packed) : Statement (.add a b) := ⟨wordB16_row _ _ _, by simp [rowOf, opcodeTable]⟩
theorem sub (a b : Packed) : Statement (.sub a b) := ⟨wordB16_row _ _ _, by simp [rowOf, opcodeTable]⟩
theorem cmpeq (a b : Packed) : Statement (.cmpeq a b) := ⟨wordB16_row _ _ _, by simp [rowOf, opcodeTable]⟩
theorem cmple (a b : Packed) : Statement (.cmple a b) := ⟨wordB16_row _ _ _, by simp [rowOf, opcodeTable]⟩
theorem cmplt (a b : Packed) : Statement (.cmplt a b) := ⟨wordB16_row _ _ _, by simp [rowOf, opcodeTable]⟩
theorem cmpgt (a b : Packed) : Statement (.cmpgt a b) := ⟨wordB16_row _ _ _, by simp [rowOf, opcodeTable]⟩
theorem cmpge (a b : Packed) : Statement (.cmpge a b) := ⟨wordB16_row _ _ _, by simp [rowOf, opcodeTable]⟩
theorem fromf (x : Word32) : Statement (.fromf x) := ⟨wordU32_row _ _, by simp [rowOf, opcodeTable]⟩
theorem tof (a : Packed) : Statement (.tof a) := ⟨wordU16_row _ _, by simp [rowOf, opcodeTable]⟩
theorem fromi (n : Word32) : Statement (.fromi n) := ⟨wordU32_row _ _, by simp [rowOf, opcodeTable]⟩
theorem toi (a : Packed) : Statement (.toi a) := ⟨wordU16_row _ _, by simp [rowOf, opcodeTable]⟩

end Sys2Proof.Laws.EncodeMatchesRow
end

