-- ==== Sys2Proof/Tests/Slice0.lean ====
section
/-! SUPPORT. The model's own tests: words of 95_test_vectors decoded and run, one step each, and for
each statement with hypotheses a concrete case that meets them. The expected values are the spec's. -/

open Sys2Proof Sys2Proof.Machine Sys2Proof.Config

namespace Sys2Proof.Tests

/-- A unit configured as (f, m), with these inputs before it. -/
def unitAt (f : BitVec 4) (m : RMode) (ins : List Input) : State := ⟨⟨f, m⟩, rebuild f m, ins, []⟩

/-- The response word with which one step answers the command word `c`. -/
def reply (s : State) (c : Word64) : Option Word64 :=
  match step (present c s) with
  | .next t => t.responses.getLast?.map responseWord
  | _ => none

/-- The response words of a unit after as many steps as there are words. -/
def replies (s : State) (cs : List Word64) : Option (List Word64) :=
  match Sys2Proof.core.run cs.length { s with inputs := cs.map .command } with
  | .next t => some (t.responses.map responseWord)
  | _ => none

/-! ## Decoding: the words of 30_encoding R31 and R32, written out field by field -/

theorem test_decode_getcfg : decode (0x01#8 ++ 0#8 ++ 0#16 ++ 0#32) = .ok .getcfg := by decide
theorem test_decode_setfrac : decode (0x02#8 ++ 0#8 ++ 0#16 ++ 9#32) = .ok (.setfrac 9) := by decide
theorem test_decode_setrnd : decode (0x03#8 ++ 0#8 ++ 0#16 ++ 1#32) = .ok (.setrnd 1) := by decide
theorem test_decode_mul :
    decode (0x10#8 ++ 0#8 ++ 0x4100#16 ++ 0#16 ++ 0x4196#16) = .ok (.mul 0x4196 0x4100) := by decide
theorem test_decode_div :
    decode (0x11#8 ++ 0#8 ++ 0x4196#16 ++ 0#16 ++ 0x432C#16) = .ok (.div 0x432C 0x4196) := by decide
theorem test_decode_sqr : decode (0x12#8 ++ 0#40 ++ 0x4200#16) = .ok (.sqr 0x4200) := by decide
theorem test_decode_sqrt : decode (0x13#8 ++ 0#40 ++ 0x44A5#16) = .ok (.sqrt 0x44A5) := by decide
theorem test_decode_inv : decode (0x14#8 ++ 0#40 ++ 0x4196#16) = .ok (.inv 0x4196) := by decide
theorem test_decode_neg : decode (0x15#8 ++ 0#40 ++ 0xC2CE#16) = .ok (.neg 0xC2CE) := by decide
theorem test_decode_add :
    decode (0x18#8 ++ 0#8 ++ 0x4196#16 ++ 0#16 ++ 0x4296#16) = .ok (.add 0x4296 0x4196) := by decide
theorem test_decode_sub :
    decode (0x19#8 ++ 0#8 ++ 0x4296#16 ++ 0#16 ++ 0x432C#16) = .ok (.sub 0x432C 0x4296) := by decide
theorem test_decode_cmpeq :
    decode (0x20#8 ++ 0#8 ++ 0x4196#16 ++ 0#16 ++ 0x4197#16) = .ok (.cmpeq 0x4197 0x4196) := by decide
theorem test_decode_cmple :
    decode (0x21#8 ++ 0#8 ++ 0x4000#16 ++ 0#16 ++ 0x4196#16) = .ok (.cmple 0x4196 0x4000) := by decide
theorem test_decode_cmplt :
    decode (0x22#8 ++ 0#8 ++ 0x4196#16 ++ 0#16 ++ 0x4000#16) = .ok (.cmplt 0x4000 0x4196) := by decide
theorem test_decode_cmpgt :
    decode (0x23#8 ++ 0#8 ++ 0x8001#16 ++ 0#16 ++ 0x0000#16) = .ok (.cmpgt 0x0000 0x8001) := by decide
theorem test_decode_cmpge :
    decode (0x24#8 ++ 0#8 ++ 0x0000#16 ++ 0#16 ++ 0x8000#16) = .ok (.cmpge 0x8000 0x0000) := by decide
theorem test_decode_fromf : decode (0x30#8 ++ 0#24 ++ 0x40400000#32) = .ok (.fromf 0x40400000) := by decide
theorem test_decode_tof : decode (0x31#8 ++ 0#40 ++ 0x4196#16) = .ok (.tof 0x4196) := by decide
theorem test_decode_fromi : decode (0x32#8 ++ 0#24 ++ 0xFFFFFFFD#32) = .ok (.fromi 0xFFFFFFFD) := by decide
theorem test_decode_toi : decode (0x33#8 ++ 0#40 ++ 0x4252#16) = .ok (.toi 0x4252) := by decide

/-- The table's row bits of TOF, as the host hands them over. -/
theorem test_decodeTableWord : decodeTableWord 64 0x3100000000004196 = some (.tof 0x4196) := by decide

/-- The next step runs the word that `withFetchWord` presents: GETCFG after reset (95 section 2). -/
theorem test_withFetchWord : step (State.reset.withFetchWord 64 0x0100000000000000) =
    .next (answered (State.reset.withFetchWord 64 0x0100000000000000) 0x78) := rfl

/-! ## WellFormed: every command is well-formed (log 10); each check of the decoder refuses a word -/

theorem test_wellFormed : wellFormed (.setfrac 0xFFFFFFFF) = true ∧ wellFormed (.mul 0x8000 0) = true := by
  decide
theorem test_refuse_opcode : decode 0x1600000000004196 = .error (.reservedOpcode 0x16) := by decide
theorem test_refuse_rsv : decode 0x1001410000004196 = .error (.fieldNotZero .rsv) := by decide
theorem test_refuse_b : decode 0x1200410000004196 = .error (.fieldNotZero .b) := by decide
theorem test_refuse_b_u32 : decode 0x0200000100000009 = .error (.fieldNotZero .b) := by decide
theorem test_refuse_a : decode 0x0100000000000001 = .error (.fieldNotZero .a) := by decide
theorem test_refuse_aHigh : decode 0x1500000000014196 = .error (.fieldNotZero .aHigh) := by decide
theorem test_refuse_aHigh_b16 : decode 0x1000410000014196 = .error (.fieldNotZero .aHigh) := by decide

/-! ## One step of each command (the vectors of 95_test_vectors sections 2 to 9) -/

theorem test_setfrac : replies State.reset [0x0200000000000009, 0x0100000000000000] =
    some [0x0000000800000000, 0x69] := by decide +kernel
theorem test_setfrac_fault : replies State.reset [0x020000000000000C, 0x0100000000000000] =
    some [0x0000000100000000, 0x78] := by decide +kernel
theorem test_setrnd : replies (unitAt 9 .lin []) [0x0300000000000001, 0x0100000000000000] =
    some [0, 0x169] := by decide +kernel
theorem test_setrnd_fault : reply State.reset 0x0300000000000002 = some 0x0000000200000000 := by
  decide +kernel
theorem test_mul : reply State.reset 0x1000410000004196 = some 0x4296 := by decide +kernel
theorem test_mul_saturates : reply State.reset 0x100020000000A000 = some 0x8001 := by decide +kernel
theorem test_div : reply State.reset 0x1100419600004100 = some 0x3F6A := by decide +kernel
theorem test_div_by_zero : reply State.reset 0x1100000000004196 = some 0x8000 := by decide +kernel
theorem test_sqr : reply State.reset 0x120000000000C196 = some 0x432C := by decide +kernel
theorem test_sqrt_log : reply (unitAt 8 .log []) 0x1300000000004197 = some 0x40CC := by decide +kernel
theorem test_sqrt_negative : reply State.reset 0x1300000000008001 = some 0x0000000300000000 := by
  decide +kernel
theorem test_inv : reply State.reset 0x140000000000C196 = some 0xBE6A := by decide +kernel
theorem test_inv_zero : reply State.reset 0x1400000000000000 = some 0x8000 := by decide +kernel
theorem test_neg : reply State.reset 0x1500000000008001 = some 0x0001 := by decide +kernel
theorem test_neg_zero : reply State.reset 0x1500000000000000 = some 0x0000 := by decide +kernel
theorem test_add : reply State.reset 0x1800419600004000 = some 0x4200 := by decide +kernel
theorem test_sub : reply State.reset 0x190041000000C196 = some 0xC253 := by decide +kernel
theorem test_cmpeq_nar : reply State.reset 0x2000800000008000 = some 0 := by decide +kernel
theorem test_cmple : reply State.reset 0x2100000000008001 = some 1 := by decide +kernel
theorem test_cmplt : reply State.reset 0x2200C1960000FFFF = some 1 := by decide +kernel
theorem test_cmpgt : reply State.reset 0x2300800100000000 = some 1 := by decide +kernel
theorem test_cmpge : reply State.reset 0x2400000000008000 = some 0 := by decide +kernel
theorem test_fromf : reply State.reset 0x3000000040490FDB = some 0x41A7 := by decide +kernel
theorem test_tof : reply State.reset 0x310000000000C196 = some 0xC040213B := by decide +kernel
theorem test_tof_subnormal : reply (unitAt 7 .lin []) 0x31000000000000FF = some 0x007F4F09 := by
  decide +kernel
theorem test_fromi : reply State.reset 0x32000000FFFFFFFD = some 0xC196 := by decide +kernel
theorem test_toi : reply State.reset 0x330000000000BF01 = some 0xFFFFFFFF := by decide +kernel
theorem test_toi_saturates : reply State.reset 0x3300000000005F00 = some 0x7FFFFFFF := by decide +kernel

/-! ## The table and the codec (95 sections 3 and 4), the printed form, the assembler -/

theorem test_entries : exp2Value 256 150 = 0x80427544 ∧ exp2Value 128 127 = 4248576697 ∧
    log2Value 256 .lin 0 = 0x0058D7D4 ∧ log2Value 256 .log 255 = 0xFF4EACA4 := by decide +kernel
theorem test_pack : pack true (-40000) = 0x8001 ∧ packUnder .flush true (-40000) = 0x0000 := by decide
theorem test_encodeLog : encodeLog .lin false (-1) = 0x3FFF ∧ encodeLog .log false (-1) = 0x4000 := by
  decide
theorem test_normalise : normalise 0x3FD3B2D66 = (33, 0x1FE9D96B3) := by decide +kernel
theorem test_printed :
    printedValue ⟨8, .lin⟩ 0x4196 = "0 1000001 10010110".toList := by decide
theorem test_assemble : assembleLine [] "MUL 0x4196, 0x4100 -> p ; the product".toList =
    some (.command (.mul 0x4196 0x4100) (some ['p'])) := by decide
theorem test_assemble_names : assembleLine [(['p'], 0x4296)] "CMPLT p, FMAX".toList =
    some (.command (.cmplt 0x4296 0x7FFF) none) := by decide

/-! ## A case that meets the hypotheses of each statement, at the ends of each clause's range -/

theorem test_witness_EveryStepKeepsTheInvariant :
    Inv (unitAt 7 .log [.command 0x020000000000000B]) ∧
    ∃ t, step (unitAt 7 .log [.command 0x020000000000000B]) = .next t := ⟨⟨by decide, rfl⟩, _, rfl⟩

theorem test_witness_Inv : Inv State.reset ∧ Inv (unitAt 8 .log []) ∧ Inv (unitAt 7 .lin []) ∧
    Inv (unitAt 11 .lin []) ∧ Inv (unitAt 11 .log []) :=
  ⟨⟨by decide, rfl⟩, ⟨by decide, rfl⟩, ⟨by decide, rfl⟩, ⟨by decide, rfl⟩, ⟨by decide, rfl⟩⟩

theorem test_witness_DecodeAndEncodeAreInverse :
    decode 0x22004196FFFF4000 = .error (.fieldNotZero .aHigh) ∧
    decode 0x2200419600004000 = .ok (.cmplt 0x4000 0x4196) := by decide

theorem test_witness_DecodeAcceptsExactlyTheTable :
    (⟨0x11, .b16⟩ : Row) ∈ opcodeTable ∧ rowAdmits ⟨0x11, .b16⟩ 0x110041960000432C = true ∧
    rowAdmits ⟨0x10, .b16⟩ 0x110041960000432C = false := by decide

/-- The same hypothesis as in the statements about a step on any presented word. -/
theorem test_witness_OneResponsePerCommand :
    (unitAt 11 .log [.command 0xFFFFFFFFFFFFFFFF]).inputs = .command 0xFFFFFFFFFFFFFFFF :: [] := rfl

/-- A command at the head of the port, followed by a reset. -/
theorem test_witness_StepRunsTheDecodedCommand :
    (unitAt 8 .lin [.command 0x1000410000004196, .reset]).inputs =
      .command 0x1000410000004196 :: [.reset] ∧
    decode 0x1000410000004196 = .ok (.mul 0x4196 0x4100) := ⟨rfl, by decide⟩

/-- Each reason of an illegal word, and a legal word of each format (with a presented command as in
`test_witness_StepRunsTheDecodedCommand`). -/
theorem test_witness_IllegalWordIsAnswered :
    illegalWord 0x0000000000000000 ∧ illegalWord 0x3400000000000000 ∧
    illegalWord 0x0101000000000000 ∧ illegalWord 0x3300000100000000 ∧ illegalWord 0x0100000000000001 ∧
    illegalWord 0x3300000080000000 ∧ ¬ illegalWord 0x0100000000000000 ∧
    ¬ illegalWord 0x02000000FFFFFFFF ∧ ¬ illegalWord 0x330000000000FFFF ∧
    ¬ illegalWord 0x1000FFFF0000FFFF := by
  simp [illegalWord]

theorem test_witness_FaultsAreExactlyTheFour :
    decode 0x0200000000000006 = .ok (.setfrac 6) ∧ decode 0x020000000000000C = .ok (.setfrac 12) ∧
    decode 0x0300000000000002 = .ok (.setrnd 2) ∧ decode 0x1300000000008001 = .ok (.sqrt 0x8001) ∧
    decode 0x130000000000FFFF = .ok (.sqrt 0xFFFF) := by decide

theorem test_witness_NoticeOnlyOnSetfrac :
    decode 0x0200000000000007 = .ok (.setfrac 7) ∧ decode 0x020000000000000B = .ok (.setfrac 11) := by
  decide

theorem test_witness_FaultHasNoEffect :
    exec (.setfrac 6) State.reset = .next (faulted State.reset .invalidFormat) ∧
    exec (.setrnd 2) State.reset = .next (faulted State.reset .invalidRoundingMode) ∧
    exec (.sqrt 0x8001) State.reset = .next (faulted State.reset .negativeRadicand) ∧
    (faulted State.reset .invalidFormat).responses = State.reset.responses ++ [.fault .invalidFormat] :=
  ⟨rfl, rfl, rfl, rfl⟩

theorem test_witness_CommandsDependOnTheUnitOnly :
    sameUnit State.reset (unitAt 8 .lin [.reset]) ∧ isValueCommand (.toi 0) = true :=
  ⟨⟨rfl, rfl⟩, rfl⟩

theorem test_witness_ValueCommandsRepeat :
    (∀ d ∈ (0x1800419600004000 : Word64) :: [0x130000000000C196, 0xFFFFFFFFFFFFFFFF],
      ∀ i, decode d = .ok i → isValueCommand i = true) ∧
    (unitAt 8 .log (([0x1800419600004000, 0x130000000000C196, 0xFFFFFFFFFFFFFFFF] ++
      [0x1800419600004000]).map .command)).inputs =
      ((0x1800419600004000 : Word64) :: [0x130000000000C196, 0xFFFFFFFFFFFFFFFF] ++
        [0x1800419600004000]).map .command := by
  refine ⟨?_, rfl⟩
  have h0 : decode 0x1800419600004000 = .ok (.add 0x4000 0x4196) := by decide
  have h1 : decode 0x130000000000C196 = .ok (.sqrt 0xC196) := by decide
  have h2 : decode 0xFFFFFFFFFFFFFFFF = .error (.reservedOpcode 0xFF) := by decide
  intro d hd i hi
  simp only [List.mem_cons, List.not_mem_nil, or_false] at hd
  rcases hd with rfl | rfl | rfl
  · rw [h0] at hi; cases hi; rfl
  · rw [h1] at hi; cases hi; rfl
  · rw [h2] at hi; cases hi

theorem test_witness_ResetInputRestoresTheUnit :
    (unitAt 11 .log [.reset, .reset]).inputs = .reset :: [.reset] ∧ (unitAt 11 .log []).inputs = [] :=
  ⟨rfl, rfl⟩

theorem test_witness_TenUnitsAreReachable :
    sameUnit (unitAt 8 .lin [.command 0x0300000000000001]) State.reset ∧
    (∃ t, Sys2Proof.core.run 1 (unitAt 8 .lin [.command 0x0300000000000001]) = .next t) ∧
    (7 : BitVec 4) ∈ ([7, 8, 9, 10, 11] : List (BitVec 4)) ∧
    (11 : BitVec 4) ∈ ([7, 8, 9, 10, 11] : List (BitVec 4)) :=
  ⟨⟨rfl, rfl⟩, ⟨_, rfl⟩, by decide, by decide⟩

theorem test_witness_SetfracSetsTheFractionWidth :
    7 ≤ (7 : Word32).toNat ∧ (7 : Word32).toNat ≤ 11 ∧ 7 ≤ (11 : Word32).toNat ∧
    (11 : Word32).toNat ≤ 11 ∧ (6 : Word32).toNat < 7 ∧ 11 < (12 : Word32).toNat := by decide

theorem test_witness_SetrndSetsTheRoundingMode :
    (0 : Word32).toNat = (if RMode.lin = .lin then 0 else 1) ∧
    (1 : Word32).toNat = (if RMode.log = .lin then 0 else 1) ∧ 2 ≤ (2 : Word32).toNat ∧
    Inv (unitAt 7 .log []) := ⟨by decide, by decide, by decide, by decide, rfl⟩

theorem test_witness_WritingTheHeldValueKeepsTheUnit : Inv (unitAt 11 .log []) ∧
    (11 : Word32).toNat = (unitAt 11 .log []).cfg.f.toNat ∧
    (1 : Word32).toNat = (if (unitAt 11 .log []).cfg.rmode = .lin then 0 else 1) :=
  ⟨⟨by decide, rfl⟩, rfl, rfl⟩

/-! The Finite patterns of least and greatest exponent of either sign; Zero and NaR are not Finite. -/

theorem test_witness_MulAddsExponents : (isFinite 0x0001 ∧ isFinite 0xFFFF) ∧
    ((0x0000 : Packed) ≠ 0x8000 ∧ (0x7FFF : Packed) ≠ 0x8000) ∧
    ¬ isFinite 0x0000 ∧ ¬ isFinite 0x8000 := by decide

theorem test_witness_DivSubtractsExponents : isFinite 0x8001 ∧ isFinite 0x7FFF := by decide

theorem test_witness_SqrDoublesTheExponent : isFinite 0x0001 ∧ isFinite 0xFFFF := by decide

theorem test_witness_InvNegatesTheExponent : isFinite 0x8001 ∧ isFinite 0x7FFF := by decide

theorem test_witness_NegFlipsTheSign : isFinite 0x0001 ∧ isFinite 0xFFFF := by decide

theorem test_witness_ComparisonsOrderKeys :
    (0xFFFF : Packed) ≠ 0x8000 ∧ (0x0000 : Packed) ≠ 0x8000 ∧ orderKey 0xFFFF < orderKey 0x0000 := by
  decide

theorem test_witness_DoublingAddsOneOctave : Inv (unitAt 11 .log []) ∧ isFinite 0xFFFF ∧
    isFinite 0x0001 := ⟨⟨by decide, rfl⟩, by decide⟩

theorem test_witness_FloatRoundTrip : Inv (unitAt 7 .log []) := ⟨by decide, rfl⟩

theorem test_witness_SqrtHalvesTheExponent :
    (isFinite 0x8001 ∧ signNat 0x8001 = 1) ∧ (isFinite 0x7FFF ∧ signNat 0x7FFF = 0) ∧
    2 * (0 : Int) = expOf 0x4000 ∧
    (2 * (8191 : Int) = expOf 0x7FFF - 1 ∧ (unitAt 8 .lin []).cfg.rmode = .lin) ∧
    (2 * (8192 : Int) = expOf 0x7FFF + 1 ∧ (8192 : Int) % 2 = 0 ∧
      (unitAt 8 .log []).cfg.rmode = .log) ∧
    (2 * (-8192 : Int) = expOf 0x0001 - 1 ∧ (-8192 : Int) % 2 = 0 ∧
      (unitAt 8 .log []).cfg.rmode = .log) := by decide

theorem test_witness_MultiplicativeIgnoresTheConfiguration :
    (unitAt 7 .log []).cfg.rmode = (unitAt 11 .log []).cfg.rmode := rfl

theorem test_witness_MultiplicativeIsExactOnReals :
    (expOf 0x6000 + expOf 0x5FFF = 16383 ∧ expOf 0x2000 + expOf 0x2001 = -16383) ∧
    (expOf 0x6000 - expOf 0x2001 = 16383 ∧ expOf 0x2001 - expOf 0x6000 = -16383) ∧
    (2 * expOf 0x5FFF = 16382 ∧ 2 * expOf 0x2001 = -16382) ∧
    (signNat 0x7FFE = 0 ∧ expOf 0x7FFE % 2 = 0) := by decide

/-! An index of the table: its first and its last. -/

theorem test_witness_Exp2EntriesAreNearest : Inv (unitAt 11 .lin []) ∧
    0 < gridOf (unitAt 11 .lin []) ∧ 2047 < gridOf (unitAt 11 .lin []) :=
  ⟨⟨by decide, rfl⟩, by decide, by decide⟩

theorem test_witness_TableEntriesAreOrdered : Inv (unitAt 7 .log []) ∧
    0 < gridOf (unitAt 7 .log []) ∧ 127 < gridOf (unitAt 7 .log []) :=
  ⟨⟨by decide, rfl⟩, by decide, by decide⟩

theorem test_witness_LinLookupRoundsToNearest : Inv State.reset ∧ State.reset.cfg.rmode = .lin ∧
    2 ^ 32 - 1 < 2 ^ 32 ∧ 256 ≤ gridOf State.reset := ⟨⟨by decide, rfl⟩, rfl, by decide, by decide⟩

theorem test_witness_LogLookupRoundsInLogSpace :
    Inv (unitAt 7 .log []) ∧ (unitAt 7 .log []).cfg.rmode = .log ∧
    roundIndex (unitAt 7 .log []) 0 = 0 ∧
    roundIndex (unitAt 7 .log []) (2 ^ 32 - 1) = gridOf (unitAt 7 .log []) :=
  ⟨⟨by decide, rfl⟩, rfl, by decide +kernel, by decide +kernel⟩

/-- x even at an even and at an odd index, and x odd. -/
theorem test_witness_LinThresholdsAreMidpoints : Inv State.reset ∧ State.reset.cfg.rmode = .lin ∧
    (tableE State.reset 0 + tableE State.reset 1) % 2 = 0 ∧
    (∃ i, i < 256 ∧ i % 2 = 1 ∧ (tableE State.reset i + tableE State.reset (i + 1)) % 2 = 0) ∧
    (tableE State.reset 255 + tableE State.reset 256) % 2 = 1 :=
  ⟨⟨by decide, rfl⟩, rfl, by decide +kernel, ⟨1, by decide, by decide, by decide +kernel⟩,
    by decide +kernel⟩

theorem test_witness_LogThresholdsAreLogMidpoints :
    Inv (unitAt 8 .log []) ∧ (unitAt 8 .log []).cfg.rmode = .log ∧ 255 < gridOf (unitAt 8 .log []) :=
  ⟨⟨by decide, rfl⟩, rfl, by decide⟩

/-- For the two lookups: the least and the greatest linear fraction, which round to indices 0 and F. -/
theorem test_witness_Log2LookupIsTheLeastIndex :
    roundIndex State.reset 0 = 0 ∧ roundIndex State.reset 0xFFFFFFFF = gridOf State.reset := by
  decide +kernel

theorem test_witness_PackSaturates : (16384 : Int) > 16383 ∧ (-16384 : Int) < -16383 ∧
    -16383 ≤ (16383 : Int) ∧ (16383 : Int) ≤ 16383 := by decide

theorem test_witness_EncodeLogRoundsHalfUnits : (-8192 : Int) % 2 = 0 ∧ (-1 : Int) % 2 = 1 := by decide

theorem test_witness_NormaliseKeepsTheTop33Bits : 0 < (2 : Nat) ^ 288 ∧ 0 < 1 ∧
    normalise 1 = (0, 0x100000000) := by decide +kernel

theorem test_witness_LinearApproximatesThePower : Inv State.reset ∧ -16383 ≤ (-16383 : Int) ∧
    linear State.reset.cfg State.reset.lut (-256) = (2 ^ 32, -33) ∧
    (-256 : Int) % gridOf State.reset = 0 ∧ expOf 0x3F00 = -256 :=
  ⟨⟨by decide, rfl⟩, by decide, by decide +kernel, by decide, by decide⟩

theorem test_witness_RneShiftRoundsToNearestEven :
    2 * ((rneShift 6 2 : Int) * 2 ^ 2 - 6).natAbs = 2 ^ 2 ∧ 2 ^ 33 - 1 < 2 ^ 33 ∧
    2 ^ 32 < 2 ^ 33 - 1 := by decide +kernel

/-- The sentinels; two Finite operands whose sum is 2^33 (p = 33); and two that cancel. -/
theorem test_witness_AddReconstructsAndRounds : Inv State.reset ∧
    (isFinite 0x4000 ∧ isFinite 0xC000 ∧ expOf 0xC000 ≤ expOf 0x4000) ∧
    (∃ Ng Nh S : Int,
      Ng = 2 ^ 32 + tableE State.reset (expOf 0x4000 % gridOf State.reset).toNat ∧
      Nh = 2 ^ 32 + tableE State.reset (expOf 0x4000 % gridOf State.reset).toNat ∧
      S = Ng * 2 ^ (expOf 0x4000 / gridOf State.reset - expOf 0x4000 / gridOf State.reset).toNat +
        (if signNat 0x4000 = signNat 0x4000 then Nh else -Nh) ∧
      (2 : Int) ^ 33 ≤ S ∧ S < 2 ^ (33 + 1)) ∧
    (∃ Ng Nh S : Int,
      Ng = 2 ^ 32 + tableE State.reset (expOf 0x4000 % gridOf State.reset).toNat ∧
      Nh = 2 ^ 32 + tableE State.reset (expOf 0xC000 % gridOf State.reset).toNat ∧
      S = Ng * 2 ^ (expOf 0x4000 / gridOf State.reset - expOf 0xC000 / gridOf State.reset).toNat +
        (if signNat 0x4000 = signNat 0xC000 then Nh else -Nh) ∧ S = 0) :=
  ⟨⟨by decide, rfl⟩, by decide,
    ⟨_, _, _, rfl, rfl, rfl, by decide +kernel, by decide +kernel⟩,
    ⟨_, _, _, rfl, rfl, rfl, by decide +kernel⟩⟩

theorem test_witness_SumIsZeroOnlyByCancellation : Inv State.reset ∧ isFinite 0x4196 ∧
    (0xC196 : Packed) = flipped 0x4196 ∧ (0xC195 : Packed) ≠ flipped 0x4196 :=
  ⟨⟨by decide, rfl⟩, by decide, by decide, by decide⟩

/-- The bound is met with equality under f = 7, and by the ends of the range under f = 11. -/
theorem test_witness_DistantOperandIsAbsorbed :
    (Inv (unitAt 7 .log []) ∧ isFinite 0x4480 ∧ isFinite 0xC000 ∧
      expOf 0xC000 + ((unitAt 7 .log []).cfg.f.toNat + 2) * gridOf (unitAt 7 .log []) =
        expOf 0x4480) ∧
    (Inv (unitAt 11 .lin []) ∧ isFinite 0x7FFF ∧ isFinite 0x8001 ∧
      expOf 0x8001 + ((unitAt 11 .lin []).cfg.f.toNat + 2) * gridOf (unitAt 11 .lin []) ≤
        expOf 0x7FFF) :=
  ⟨⟨⟨by decide, rfl⟩, by decide⟩, ⟨⟨by decide, rfl⟩, by decide⟩⟩

/-- An even x at an even and at an odd index, an odd x, and log mode. -/
theorem test_witness_NeighbourSumsFollowTheTieRule : Inv State.reset ∧ Inv (unitAt 8 .log []) ∧
    (isFinite 0x4001 ∧ isFinite 0x4000 ∧ signNat 0x4001 = signNat 0x4000 ∧
      expOf 0x4000 = expOf 0x4001 - 1 ∧ (256 : Int) = expOf 0x4001 + gridOf State.reset - 1 ∧
      (256 : Int) % 2 = 0) ∧
    (tableE State.reset (expOf 0x4000 % gridOf State.reset).toNat +
      tableE State.reset ((expOf 0x4000 % gridOf State.reset).toNat + 1)) % 2 = 0 ∧
    ((258 : Int) = expOf 0x4002 + gridOf State.reset ∧ (258 : Int) % 2 = 0 ∧
      expOf 0x4001 = expOf 0x4002 - 1 ∧
      (tableE State.reset (expOf 0x4001 % gridOf State.reset).toNat +
        tableE State.reset ((expOf 0x4001 % gridOf State.reset).toNat + 1)) % 2 = 0) ∧
    (expOf 0x3FFF = expOf 0x4000 - 1 ∧
      (tableE State.reset (expOf 0x3FFF % gridOf State.reset).toNat +
        tableE State.reset ((expOf 0x3FFF % gridOf State.reset).toNat + 1)) % 2 = 1) :=
  ⟨⟨by decide, rfl⟩, ⟨by decide, rfl⟩, by decide, by decide +kernel,
    by decide +kernel, by decide, by decide +kernel⟩

/-- The order of the reals needs two patterns other than NaR; equality is met by a pattern and itself. -/
theorem test_witness_ComparisonsFollowTheRealOrder :
    (0x0000 : Packed) ≠ 0x8000 ∧ realValue 8 0x8001 < realValue 8 0x0000 ∧
    realValue 8 0x0000 ≤ realValue 8 0x0001 := by
  refine ⟨by decide, ?_, ?_⟩
  · have h : (0 : ℝ) < (2 : ℝ) ^ ((expOf 0x8001 : ℝ) / 2 ^ 8) := Real.rpow_pos_of_pos two_pos _
    simpa [realValue] using h
  · have h : (0 : ℝ) < (2 : ℝ) ^ ((expOf 0x0001 : ℝ) / 2 ^ 8) := Real.rpow_pos_of_pos two_pos _
    simpa [realValue] using h.le

/-- The words at the ends of each clause of FROMF. -/
theorem test_witness_FromfEncodesExactly : Inv (unitAt 7 .lin []) ∧
    ((0xFFFFFFFF : Word32).toNat / 2 ^ 23 % 2 ^ 8 = 255 ∧ (0x7F800000 : Word32).toNat / 2 ^ 23 % 2 ^ 8 = 255) ∧
    ((0x80000000 : Word32).toNat / 2 ^ 23 % 2 ^ 8 = 0 ∧ (0x80000000 : Word32).toNat % 2 ^ 23 = 0) ∧
    ((1 : Word32).toNat / 2 ^ 23 % 2 ^ 8 = 0 ∧ 2 ^ 0 ≤ (1 : Word32).toNat % 2 ^ 23 ∧
      (1 : Word32).toNat % 2 ^ 23 < 2 ^ 1) ∧
    (2 ^ 22 ≤ (0x007FFFFF : Word32).toNat % 2 ^ 23 ∧ (0x007FFFFF : Word32).toNat % 2 ^ 23 < 2 ^ 23) ∧
    ((0x00800000 : Word32).toNat / 2 ^ 23 % 2 ^ 8 = 1 ∧
      (0xFF7FFFFF : Word32).toNat / 2 ^ 23 % 2 ^ 8 = 254) := ⟨⟨by decide, rfl⟩, by decide⟩

/-- The least and the greatest exponents of TOF's two clauses under f = 7. -/
theorem test_witness_TofRoundsOnce : Inv (unitAt 7 .lin []) ∧
    expOf 0x0100 / gridOf (unitAt 7 .lin []) = -126 ∧ expOf 0x7FFF / gridOf (unitAt 7 .lin []) = 127 ∧
    expOf 0x00FF / gridOf (unitAt 7 .lin []) = -127 ∧ expOf 0x0001 / gridOf (unitAt 7 .lin []) = -128 :=
  ⟨⟨by decide, rfl⟩, by decide⟩

theorem test_witness_FromiEncodesExactly : Inv State.reset ∧
    (2 ^ 0 ≤ (0xFFFFFFFF : Word32).toInt.natAbs ∧ (0xFFFFFFFF : Word32).toInt.natAbs < 2 ^ 1) ∧
    (2 ^ 31 ≤ (0x80000000 : Word32).toInt.natAbs ∧ (0x80000000 : Word32).toInt.natAbs < 2 ^ 32) ∧
    (2 ^ 30 ≤ (0x7FFFFFFF : Word32).toInt.natAbs ∧ (0x7FFFFFFF : Word32).toInt.natAbs < 2 ^ 31) :=
  ⟨⟨by decide, rfl⟩, by decide⟩

theorem test_witness_ToiRoundsAndSaturates : Inv State.reset ∧
    (expOf 0x6000 / gridOf State.reset = 32 ∧ expOf 0x5FFF / gridOf State.reset = 31) ∧
    (isFinite 0x6000 ∧ isFinite 0x5FFF) := ⟨⟨by decide, rfl⟩, by decide, by decide⟩

theorem test_witness_PrintedValueGroupsTheBits : legalFrac 7 ∧ legalFrac 11 := by decide

end Sys2Proof.Tests
end

section

open Sys2Proof.Machine

namespace Sys2Proof.Proofs

/-- Settles O14, from the laws of the reset state's fields (70 R120); the configuration's law gives both
`f` and `rmode`. -/
theorem resetValues : Obligations.ResetValues := by
  have frac : State.reset.cfg.f = 8 := by rw [reset_cfg]
  have mode : State.reset.cfg.rmode = .lin := by rw [reset_cfg]
  exact ⟨frac, mode, reset_lut, reset_inputs⟩

end Sys2Proof.Proofs
end

section
/-! What the three commands with more than one outcome answer, outcome by outcome. -/

open Sys2Proof.Machine

namespace Sys2Proof.Proofs

variable (s : State)

/-- SETFRAC with an illegal operand raises InvalidFormat (40_config R46). -/
theorem exec_setfrac_of_illegal {n : Word32} (h : fracOperand n = none) :
    exec (.setfrac n) s = .next (answer (.fault .invalidFormat) s) := by
  simp only [exec_setfrac, execSetfrac, h, raiseFault_eq_answer]

/-- SETFRAC with a legal operand writes `f`, rebuilds and gives notice (40_config R46). -/
theorem exec_setfrac_of_legal {n : Word32} {f : BitVec 4} (h : fracOperand n = some f) :
    exec (.setfrac n) s = .next (answer (.result 0 true) (reconfigure { s.cfg with f := f } s)) := by
  simp only [exec_setfrac, execSetfrac, h, respondNotice_eq_answer]

/-- SETRND with an illegal operand raises InvalidRoundingMode (40_config R47). -/
theorem exec_setrnd_of_illegal {m : Word32} (h : rmodeOperand m = none) :
    exec (.setrnd m) s = .next (answer (.fault .invalidRoundingMode) s) := by
  simp only [exec_setrnd, execSetrnd, h, raiseFault_eq_answer]

/-- SETRND with a legal operand writes `rmode` and rebuilds (40_config R47). -/
theorem exec_setrnd_of_legal {m : Word32} {mode : Config.RMode} (h : rmodeOperand m = some mode) :
    exec (.setrnd m) s =
      .next (answer (.result 0 false) (reconfigure { s.cfg with rmode := mode } s)) := by
  simp only [exec_setrnd, execSetrnd, h, respond_eq_answer]

/-- SQRT of a negative pattern raises NegativeRadicand (43_multiplicative R73). -/
theorem exec_sqrt_of_negative {a : Packed} (h : sqrtPacked s.cfg.rmode a = none) :
    exec (.sqrt a) s = .next (answer (.fault .negativeRadicand) s) := by
  simp only [exec_sqrt, execSqrt, h, raiseFault_eq_answer]

/-- SQRT of any other pattern answers the root (43_multiplicative R73). -/
theorem exec_sqrt_of_root {a q : Packed} (h : sqrtPacked s.cfg.rmode a = some q) :
    exec (.sqrt a) s = .next (answer (.result (packedResult q) false) s) := by
  simp only [exec_sqrt, execSqrt, h, respond_eq_answer]

end Sys2Proof.Proofs
end

section
/-! The invariant of 10_state R13: each update of the state that a step can end with keeps it. -/

open Sys2Proof.Machine

namespace Sys2Proof.Proofs

/-- The invariant reads CFG and LUT only. -/
theorem inv_of_sameUnit {s t : State} (hs : Inv s) (same : sameUnit s t) : Inv t := by
  obtain ⟨legal, built⟩ := hs
  obtain ⟨hcfg, hlut⟩ := same
  rw [hcfg] at legal
  rw [hcfg, hlut] at built
  exact ⟨legal, built⟩

theorem answer_keeps_inv {s : State} (hs : Inv s) (r : Response) : Inv (answer r s) :=
  inv_of_sameUnit hs ⟨(answer_cfg s r).symm, (answer_lut s r).symm⟩

/-- Writing a legal CFG establishes the invariant whatever the table held before: the rebuild belongs to
the write (40_config R48). -/
theorem reconfigure_meets_inv (s : State) {c : Cfg} (h : legalFrac c.f) : Inv (reconfigure c s) :=
  ⟨h, by rw [reconfigure_cfg, reconfigure_lut]⟩

/-- The reset values are `f = 8` and the table rebuilt for them (70 R120). -/
theorem reset_meets_inv : Inv State.reset :=
  ⟨by rw [reset_cfg]; decide, by rw [reset_lut, reset_cfg]⟩

/-- Reset establishes the invariant in any state (70 R120). -/
theorem resetUnit_meets_inv (s : State) : Inv (resetUnit s) :=
  inv_of_sameUnit reset_meets_inv ⟨(resetUnit_cfg s).symm, (resetUnit_lut s).symm⟩

/-- Every command keeps the invariant: SETFRAC writes a legal `f`, SETRND keeps the legal `f` it finds,
and both rebuild (10_state R13). -/
theorem exec_keeps_inv {s t : State} {i : Instr} (hs : Inv s) (h : exec i s = .next t) : Inv t := by
  obtain ⟨r, ht⟩ | ⟨n, f, -, hf, ht⟩ | ⟨m, mode, -, -, ht⟩ := exec_cases s i
  · cases h.symm.trans ht
    exact answer_keeps_inv hs r
  · cases h.symm.trans ht
    exact answer_keeps_inv (reconfigure_meets_inv s (fracOperand_legal n hf)) _
  · cases h.symm.trans ht
    have legal : legalFrac { s.cfg with rmode := mode }.f := hs.1
    exact answer_keeps_inv (reconfigure_meets_inv s legal) _

/-- Settles O17, by what a step can do: nothing, a reset, the refusal of a word, or a command. -/
theorem everyStepKeepsTheInvariant : Obligations.EveryStepKeepsTheInvariant := by
  intro s t hs h
  obtain ⟨-, ht⟩ | ⟨_, -, ht⟩ | ⟨_, _, _, -, -, ht⟩ | ⟨_, _, i, -, -, ht⟩ := step_cases s
  · cases h.symm.trans ht
    exact hs
  · cases h.symm.trans ht
    exact resetUnit_meets_inv s
  · cases h.symm.trans ht
    exact answer_keeps_inv hs _
  · exact exec_keeps_inv hs (ht.symm.trans h)

end Sys2Proof.Proofs
end

section
/-! A command's response and effect are functions of the command and the unit (10_state R10). -/

open Sys2Proof.Machine

namespace Sys2Proof.Proofs

/-- Everything a command can do in two states with the same unit: the same answer in both, or (SETFRAC
and SETRND only) the same reconfiguration and the same answer. -/
theorem exec_cases_of_sameUnit (i : Instr) {s s' : State} (same : sameUnit s s') :
    (∃ r, exec i s = .next (answer r s) ∧ exec i s' = .next (answer r s')) ∨
    (isValueCommand i = false ∧ ∃ r c, exec i s = .next (answer r (reconfigure c s)) ∧
      exec i s' = .next (answer r (reconfigure c s'))) := by
  obtain ⟨cfg, lut, ins, out⟩ := s
  obtain ⟨cfg', lut', ins', out'⟩ := s'
  obtain ⟨hcfg, hlut⟩ : cfg = cfg' ∧ lut = lut' := same
  subst hcfg hlut
  cases i with
  | setfrac n =>
    cases h : fracOperand n with
    | none => exact .inl ⟨_, exec_setfrac_of_illegal _ h, exec_setfrac_of_illegal _ h⟩
    | some f => exact .inr ⟨rfl, _, _, exec_setfrac_of_legal _ h, exec_setfrac_of_legal _ h⟩
  | setrnd m =>
    cases h : rmodeOperand m with
    | none => exact .inl ⟨_, exec_setrnd_of_illegal _ h, exec_setrnd_of_illegal _ h⟩
    | some mode => exact .inr ⟨rfl, _, _, exec_setrnd_of_legal _ h, exec_setrnd_of_legal _ h⟩
  | sqrt a =>
    cases h : sqrtPacked cfg.rmode a with
    | none => exact .inl ⟨_, exec_sqrt_of_negative _ h, exec_sqrt_of_negative _ h⟩
    | some q => exact .inl ⟨_, exec_sqrt_of_root _ h, exec_sqrt_of_root _ h⟩
  | _ => exact .inl ⟨_, rfl, rfl⟩

/-- Settles O11, from what a command does in two states with the same unit; the port's two fields and
the unit of each next state are the laws of `answer` and `reconfigure`. -/
theorem commandsDependOnTheUnitOnly : Obligations.CommandsDependOnTheUnitOnly := by
  intro i s s' same
  obtain ⟨r, h, h'⟩ | ⟨notValue, r, c, h, h'⟩ := exec_cases_of_sameUnit i same
  · exact ⟨r, _, _, h, h', rfl, rfl, rfl, rfl, same, fun _ => ⟨rfl, rfl⟩⟩
  · refine ⟨r, _, _, h, h', rfl, rfl, rfl, rfl, ⟨rfl, rfl⟩, fun isValue => ?_⟩
    rw [notValue] at isValue
    contradiction

end Sys2Proof.Proofs
end

section
/-! Between two reconfigurations every word presented has one reply, fixed by the unit (20_memory R22). -/

open Sys2Proof.Machine

namespace Sys2Proof.Proofs

/-- The reply to the word `c` while the unit is that of `s`: every step that accepts `c` answers `r` and
writes neither CFG nor LUT, whatever else waits at the port or was answered before. -/
def RepliesWith (s : State) (c : Word64) (r : Response) : Prop :=
  ∀ t rest, sameUnit s t → t.inputs = .command c :: rest → step t = .next (answer r t)

theorem step_of_illegal {s : State} {c : Word64} {rest : List Input} {why : Illegal}
    (head : s.inputs = .command c :: rest) (hc : decode c = .error why) :
    step s = .next (answer (.fault .illegalCommand) s) := by
  simp only [step, accept_eq, head, List.head?_cons, hc, rejectWord_eq_answer]

theorem step_of_decoded {s : State} {c : Word64} {rest : List Input} {i : Instr}
    (head : s.inputs = .command c :: rest) (hc : decode c = .ok i) : step s = exec i s := by
  simp only [step, accept_eq, head, List.head?_cons, hc]

theorem answer_injective {s : State} {r r' : Response} (h : answer r s = answer r' s) : r = r' := by
  have responses : s.responses ++ [r] = s.responses ++ [r'] := congrArg State.responses h
  simpa using responses

/-- A value command only answers, and with the same response in every state with the same unit
(10_state R10). -/
theorem exec_valueCommand {i : Instr} (isValue : isValueCommand i = true) (s : State) :
    ∃ r, ∀ t, sameUnit s t → exec i t = .next (answer r t) := by
  have both : ∀ t, sameUnit s t → ∃ r, exec i s = .next (answer r s) ∧ exec i t = .next (answer r t) := by
    intro t same
    obtain alike | ⟨notValue, -⟩ := exec_cases_of_sameUnit i same
    · exact alike
    · rw [notValue] at isValue
      contradiction
  obtain ⟨r, hs, -⟩ := both s ⟨rfl, rfl⟩
  refine ⟨r, fun t same => ?_⟩
  obtain ⟨r', hs', ht⟩ := both t same
  have eq : r = r' := answer_injective (Host.Outcome.next.inj (hs.symm.trans hs'))
  rw [eq, ht]

/-- A word that is neither SETFRAC nor SETRND, legal or not, has a reply in every unit. -/
theorem exists_reply {c : Word64} (isValue : ∀ i, decode c = .ok i → isValueCommand i = true)
    (s : State) : ∃ r, RepliesWith s c r := by
  cases hc : decode c with
  | error why => exact ⟨_, fun _ _ _ head => step_of_illegal head hc⟩
  | ok i =>
    obtain ⟨r, hr⟩ := exec_valueCommand (isValue i hc) s
    exact ⟨r, fun t _ same head => (step_of_decoded head hc).trans (hr t same)⟩

theorem run_succ {M : Host.Core} {s t : M.State} (h : M.step s = .next t) (k : Nat) :
    M.run (k + 1) s = M.run k t := by
  simp only [Host.Core.run, h]

/-- A run that presents only words with a reply gives these replies, in order, and keeps the unit. -/
theorem run_replies {s : State} {reply : Word64 → Response} (words : List Word64)
    (replies : ∀ d ∈ words, RepliesWith s d (reply d)) (t : State) (same : sameUnit s t)
    (presented : t.inputs = words.map .command) :
    ∃ u : State, Sys2Proof.core.run words.length t = .next u ∧
      u.responses = t.responses ++ words.map reply ∧ sameUnit s u := by
  induction words generalizing t with
  | nil => exact ⟨t, rfl, (List.append_nil _).symm, same⟩
  | cons d rest ih =>
    obtain ⟨replyHead, replyRest⟩ := List.forall_mem_cons.mp replies
    have restPresented : (answer (reply d) t).inputs = rest.map .command := by
      rw [answer_inputs, presented, List.map_cons, List.tail_cons]
    obtain ⟨u, run, responses, unit⟩ := ih replyRest (answer (reply d) t) same restPresented
    refine ⟨u, (run_succ (replyHead t _ same presented) _).trans run, ?_, unit⟩
    rw [responses, answer_responses, List.append_assoc, List.map_cons, List.singleton_append]

/-- Settles O13: the run's responses are the replies of its words, so equal words at its two ends have
equal responses. -/
theorem valueCommandsRepeat : Obligations.ValueCommandsRepeat := by
  intro s c between isValue presented
  have inhabited : Nonempty Response := ⟨.fault .illegalCommand⟩
  choose! reply replies using fun d (hd : d ∈ c :: between) => exists_reply (isValue d hd) s
  have repliesAll : ∀ d ∈ c :: between ++ [c], RepliesWith s d (reply d) := by
    intro d hd
    obtain hd | hd := List.mem_append.mp hd
    · exact replies d hd
    · rw [List.mem_singleton.mp hd]
      exact replies c List.mem_cons_self
  obtain ⟨t, run, responses, unit⟩ := run_replies _ repliesAll s ⟨rfl, rfl⟩ presented
  have length : (c :: between ++ [c]).length = between.length + 2 := by simp
  rw [length] at run
  refine ⟨t, reply c, between.map reply, run, ?_, List.length_map _, unit⟩
  simpa using responses

end Sys2Proof.Proofs
end

section
/-! The word of each operand format as a number: the operands stand in their fields, and every other bit
is zero (30_encoding R30, R32). -/

open Sys2Proof Sys2Proof.Machine

namespace Sys2Proof.Proofs

/-- The concatenation of two words as a number. -/
theorem toNat_append_eq_add {m n : Nat} (h : BitVec m) (l : BitVec n) :
    (h ++ l).toNat = h.toNat * 2 ^ n + l.toNat := by
  rw [BitVec.toNat_append, ← Nat.shiftLeft_add_eq_or_of_lt l.isLt, Nat.shiftLeft_eq]

theorem commandWord_toNat (op rsv : BitVec 8) (b : Packed) (a : Word32) :
    (commandWord op rsv b a).toNat =
      op.toNat * 2 ^ 56 + rsv.toNat * 2 ^ 48 + b.toNat * 2 ^ 32 + a.toNat := by
  simp only [commandWord, toNat_append_eq_add]
  omega

/-- A word with RSV zero, by its numbers (30_encoding R30). -/
theorem commandWord_eq_wordOf (op : BitVec 8) (b : Packed) (a : Word32) :
    commandWord op 0 b a = wordOf op.toNat a.toNat b.toNat := by
  have value : (commandWord op 0 b a).toNat = op.toNat * 2 ^ 56 + b.toNat * 2 ^ 32 + a.toNat := by
    simpa using commandWord_toNat op 0 b a
  rw [wordOf, ← value, BitVec.ofNat_toNat, BitVec.setWidth_eq]

/-- A packed operand in A is zero-extended (30_encoding R32). -/
theorem zeroHigh_toNat (a : Packed) : (0#16 ++ a : Word32).toNat = a.toNat := by
  rw [toNat_append_eq_add, BitVec.toNat_zero, Nat.zero_mul, Nat.zero_add]

variable (op : BitVec 8) (a b : Packed) (x : Word32)

theorem wordN_eq_wordOf : wordN op = wordOf op.toNat 0 0 := commandWord_eq_wordOf op 0 0

theorem wordU16_eq_wordOf : wordU16 op a = wordOf op.toNat a.toNat 0 := by
  rw [← zeroHigh_toNat a]
  exact commandWord_eq_wordOf op 0 (0#16 ++ a)

theorem wordU32_eq_wordOf : wordU32 op x = wordOf op.toNat x.toNat 0 := commandWord_eq_wordOf op 0 x

theorem wordB16_eq_wordOf : wordB16 op a b = wordOf op.toNat a.toNat b.toNat := by
  rw [← zeroHigh_toNat a]
  exact commandWord_eq_wordOf op b (0#16 ++ a)

/-- Settles O1: the encoder's word of each command is that of its format. -/
theorem encodeLaysOutTheFields : Obligations.EncodeLaysOutTheFields :=
  ⟨wordN_eq_wordOf _, fun _ => wordU32_eq_wordOf _ _, fun _ => wordU32_eq_wordOf _ _,
    fun _ _ => wordB16_eq_wordOf _ _ _, fun _ _ => wordB16_eq_wordOf _ _ _,
    fun _ => wordU16_eq_wordOf _ _, fun _ => wordU16_eq_wordOf _ _,
    fun _ => wordU16_eq_wordOf _ _, fun _ => wordU16_eq_wordOf _ _,
    fun _ _ => wordB16_eq_wordOf _ _ _, fun _ _ => wordB16_eq_wordOf _ _ _,
    fun _ _ => wordB16_eq_wordOf _ _ _, fun _ _ => wordB16_eq_wordOf _ _ _,
    fun _ _ => wordB16_eq_wordOf _ _ _, fun _ _ => wordB16_eq_wordOf _ _ _,
    fun _ _ => wordB16_eq_wordOf _ _ _,
    fun _ => wordU32_eq_wordOf _ _, fun _ => wordU16_eq_wordOf _ _,
    fun _ => wordU32_eq_wordOf _ _, fun _ => wordU16_eq_wordOf _ _⟩

end Sys2Proof.Proofs
end

section
/-! Decoding against encoding, format by format: a format's reader reads the operands back from the
format's word, which is the one word with these operands and its other fields zero (30_encoding R32). -/

open Sys2Proof

namespace Sys2Proof.Proofs

variable (op : BitVec 8) (a b : Packed) (x : Word32)

theorem fieldOp_wordN : fieldOp (wordN op) = op := fieldOp_commandWord ..
theorem fieldOp_wordU16 : fieldOp (wordU16 op a) = op := fieldOp_commandWord ..
theorem fieldOp_wordU32 : fieldOp (wordU32 op x) = op := fieldOp_commandWord ..
theorem fieldOp_wordB16 : fieldOp (wordB16 op a b) = op := fieldOp_commandWord ..

theorem takeN_wordN (i : Instr) : takeN (wordN op) i = .ok i :=
  (takeN_eq_ok ..).mpr
    ⟨fieldRsv_commandWord .., fieldB_commandWord .., fieldA_commandWord .., rfl⟩

theorem takeU16_wordU16 (mk : Packed → Instr) : takeU16 (wordU16 op a) mk = .ok (mk a) :=
  (takeU16_eq_ok ..).mpr ⟨fieldRsv_commandWord .., fieldB_commandWord .., fieldAHigh_commandWord ..,
    congrArg mk (fieldALow_commandWord ..)⟩

theorem takeU32_wordU32 (mk : Word32 → Instr) : takeU32 (wordU32 op x) mk = .ok (mk x) :=
  (takeU32_eq_ok ..).mpr
    ⟨fieldRsv_commandWord .., fieldB_commandWord .., congrArg mk (fieldA_commandWord ..)⟩

theorem takeB16_wordB16 (mk : Packed → Packed → Instr) :
    takeB16 (wordB16 op a b) mk = .ok (mk a b) :=
  (takeB16_eq_ok ..).mpr ⟨fieldRsv_commandWord .., fieldAHigh_commandWord ..,
    congrArg₂ mk (fieldALow_commandWord ..) (fieldB_commandWord ..)⟩

/-- Every command decodes from its own word. -/
theorem decode_encode (i : Instr) : decode (encode i) = .ok i := by
  cases i with
  | getcfg => rw [encode, decode, fieldOp_wordN]; exact takeN_wordN ..
  | setfrac | setrnd | fromf | fromi =>
    rw [encode, decode, fieldOp_wordU32]; exact takeU32_wordU32 ..
  | sqr | sqrt | inv | neg | tof | toi =>
    rw [encode, decode, fieldOp_wordU16]; exact takeU16_wordU16 ..
  | mul | div | add | sub | cmpeq | cmple | cmplt | cmpgt | cmpge =>
    rw [encode, decode, fieldOp_wordB16]; exact takeB16_wordB16 ..

variable {op} {c : Word64} (hop : fieldOp c = op) (hrsv : fieldRsv c = 0)
include hop hrsv

/-- A word whose must-be-zero fields are zero is the format's word of the operands in it; likewise for
the other three formats below. -/
theorem wordN_of_fields (hb : fieldB c = 0) (ha : fieldA c = 0) : wordN op = c := by
  have word := commandWord_fields c
  rwa [hop, hrsv, hb, ha] at word

theorem wordU32_of_fields (hb : fieldB c = 0) : wordU32 op (fieldA c) = c := by
  have word := commandWord_fields c
  rwa [hop, hrsv, hb] at word

theorem wordB16_of_fields (hhigh : fieldAHigh c = 0) : wordB16 op (fieldALow c) (fieldB c) = c := by
  have word := commandWord_fields c
  rwa [hop, hrsv, ← fieldA_halves, hhigh] at word

theorem wordU16_of_fields (hb : fieldB c = 0) (hhigh : fieldAHigh c = 0) :
    wordU16 op (fieldALow c) = c := by
  have word := wordB16_of_fields hop hrsv hhigh
  rwa [hb] at word

end Sys2Proof.Proofs
end

section
/-! What a format's reader accepts is the word of the command it answers, and so is what the decoder
accepts (30_encoding R34). -/

open Sys2Proof

namespace Sys2Proof.Proofs

variable {op : Nat} {c : Word64} {i : Instr}

theorem fieldOp_eq_ofNat (hop : (fieldOp c).toNat = op) : fieldOp c = BitVec.ofNat 8 op := by
  rw [← hop, BitVec.ofNat_toNat, BitVec.setWidth_eq]

theorem encode_of_takeN {j : Instr} (hop : (fieldOp c).toNat = op) (h : takeN c j = .ok i)
    (enc : encode j = wordN (BitVec.ofNat 8 op)) : encode i = c := by
  obtain ⟨hrsv, hb, ha, rfl⟩ := (takeN_eq_ok ..).mp h
  rw [enc, wordN_of_fields (fieldOp_eq_ofNat hop) hrsv hb ha]

theorem encode_of_takeU16 {mk : Packed → Instr} (hop : (fieldOp c).toNat = op)
    (h : takeU16 c mk = .ok i) (enc : ∀ a, encode (mk a) = wordU16 (BitVec.ofNat 8 op) a) :
    encode i = c := by
  obtain ⟨hrsv, hb, hhigh, rfl⟩ := (takeU16_eq_ok ..).mp h
  rw [enc, wordU16_of_fields (fieldOp_eq_ofNat hop) hrsv hb hhigh]

theorem encode_of_takeU32 {mk : Word32 → Instr} (hop : (fieldOp c).toNat = op)
    (h : takeU32 c mk = .ok i) (enc : ∀ x, encode (mk x) = wordU32 (BitVec.ofNat 8 op) x) :
    encode i = c := by
  obtain ⟨hrsv, hb, rfl⟩ := (takeU32_eq_ok ..).mp h
  rw [enc, wordU32_of_fields (fieldOp_eq_ofNat hop) hrsv hb]

theorem encode_of_takeB16 {mk : Packed → Packed → Instr} (hop : (fieldOp c).toNat = op)
    (h : takeB16 c mk = .ok i) (enc : ∀ a b, encode (mk a b) = wordB16 (BitVec.ofNat 8 op) a b) :
    encode i = c := by
  obtain ⟨hrsv, hhigh, rfl⟩ := (takeB16_eq_ok ..).mp h
  rw [enc, wordB16_of_fields (fieldOp_eq_ofNat hop) hrsv hhigh]

/-- A word that decodes is the word of its command: the arms of `decode`, numbered in its order and
grouped by format. -/
theorem encode_of_decode (h : decode c = .ok i) : encode i = c := by
  unfold decode at h
  split at h
  case h_1 hop => exact encode_of_takeN hop h rfl
  case h_2 hop | h_3 hop | h_17 hop | h_19 hop => exact encode_of_takeU32 hop h fun _ => rfl
  case h_6 hop | h_7 hop | h_8 hop | h_9 hop | h_18 hop | h_20 hop =>
    exact encode_of_takeU16 hop h fun _ => rfl
  case h_4 hop | h_5 hop | h_10 hop | h_11 hop | h_12 hop | h_13 hop | h_14 hop | h_15 hop
      | h_16 hop =>
    exact encode_of_takeB16 hop h fun _ _ => rfl
  case h_21 => contradiction

/-- Settles O2: the two directions, each by the four formats. -/
theorem decodeAndEncodeAreInverse : Obligations.DecodeAndEncodeAreInverse :=
  ⟨decode_encode, fun _ _ => encode_of_decode⟩

end Sys2Proof.Proofs
end

section
/-! The opcode table's masks (30_encoding R32): a word that a row admits has the row's opcode and the
format's must-be-zero fields zero, so it is the word of a command of that row. -/

open Sys2Proof Sys2Proof.Machine

namespace Sys2Proof.Proofs

/-- Where the mask of a row keeps a field, an admitted word has that field of the row's match. -/
theorem extract_of_rowAdmits {r : Row} {c : Word64} (admits : rowAdmits r c = true) {start len : Nat}
    (kept : (formatMask r.format).extractLsb' start len = BitVec.allOnes len) :
    c.extractLsb' start len = (rowMatch r).extractLsb' start len := by
  rw [← beq_iff_eq.mp admits, BitVec.extractLsb'_and, kept, BitVec.and_allOnes]

variable {op : BitVec 8} {f : Format} {c : Word64} (admits : rowAdmits ⟨op, f⟩ c = true)
include admits

/-- Every mask keeps OP. -/
theorem fieldOp_of_rowAdmits : fieldOp c = op := by
  have kept : fieldOp (formatMask f) = 0xFF := by cases f <;> rfl
  exact (extract_of_rowAdmits admits kept).trans (fieldOp_commandWord ..)

/-- Every mask keeps RSV. -/
theorem fieldRsv_of_rowAdmits : fieldRsv c = 0 := by
  have kept : fieldRsv (formatMask f) = 0xFF := by cases f <;> rfl
  exact (extract_of_rowAdmits admits kept).trans (fieldRsv_commandWord ..)

theorem fieldB_of_rowAdmits (kept : fieldB (formatMask f) = 0xFFFF) : fieldB c = 0 :=
  (extract_of_rowAdmits admits kept).trans (fieldB_commandWord ..)

theorem fieldAHigh_of_rowAdmits (kept : fieldAHigh (formatMask f) = 0xFFFF) : fieldAHigh c = 0 :=
  (extract_of_rowAdmits admits kept).trans (fieldAHigh_commandWord op 0 0 0 0)

theorem fieldA_of_rowAdmits (kept : fieldA (formatMask f) = 0xFFFFFFFF) : fieldA c = 0 :=
  (extract_of_rowAdmits admits kept).trans (fieldA_commandWord ..)

omit admits

theorem wordN_of_rowAdmits (admits : rowAdmits ⟨op, .n⟩ c = true) : wordN op = c :=
  wordN_of_fields (fieldOp_of_rowAdmits admits) (fieldRsv_of_rowAdmits admits)
    (fieldB_of_rowAdmits admits (by decide)) (fieldA_of_rowAdmits admits (by decide))

theorem wordU16_of_rowAdmits (admits : rowAdmits ⟨op, .u16⟩ c = true) :
    wordU16 op (fieldALow c) = c :=
  wordU16_of_fields (fieldOp_of_rowAdmits admits) (fieldRsv_of_rowAdmits admits)
    (fieldB_of_rowAdmits admits (by decide)) (fieldAHigh_of_rowAdmits admits (by decide))

theorem wordU32_of_rowAdmits (admits : rowAdmits ⟨op, .u32⟩ c = true) :
    wordU32 op (fieldA c) = c :=
  wordU32_of_fields (fieldOp_of_rowAdmits admits) (fieldRsv_of_rowAdmits admits)
    (fieldB_of_rowAdmits admits (by decide))

theorem wordB16_of_rowAdmits (admits : rowAdmits ⟨op, .b16⟩ c = true) :
    wordB16 op (fieldALow c) (fieldB c) = c :=
  wordB16_of_fields (fieldOp_of_rowAdmits admits) (fieldRsv_of_rowAdmits admits)
    (fieldAHigh_of_rowAdmits admits (by decide))

/-- A word that a row of the table admits is the word of a command of that row, row by row. -/
theorem exists_encode_of_rowAdmits {r : Row} (mem : r ∈ opcodeTable)
    (admits : rowAdmits r c = true) : ∃ i, rowOf i = r ∧ encode i = c := by
  simp only [opcodeTable, List.mem_cons, List.not_mem_nil, or_false] at mem
  rcases mem with rfl | rfl | rfl | rfl | rfl | rfl | rfl | rfl | rfl | rfl | rfl | rfl | rfl | rfl |
    rfl | rfl | rfl | rfl | rfl | rfl
  · exact ⟨.getcfg, rfl, wordN_of_rowAdmits admits⟩
  · exact ⟨.setfrac _, rfl, wordU32_of_rowAdmits admits⟩
  · exact ⟨.setrnd _, rfl, wordU32_of_rowAdmits admits⟩
  · exact ⟨.mul _ _, rfl, wordB16_of_rowAdmits admits⟩
  · exact ⟨.div _ _, rfl, wordB16_of_rowAdmits admits⟩
  · exact ⟨.sqr _, rfl, wordU16_of_rowAdmits admits⟩
  · exact ⟨.sqrt _, rfl, wordU16_of_rowAdmits admits⟩
  · exact ⟨.inv _, rfl, wordU16_of_rowAdmits admits⟩
  · exact ⟨.neg _, rfl, wordU16_of_rowAdmits admits⟩
  · exact ⟨.add _ _, rfl, wordB16_of_rowAdmits admits⟩
  · exact ⟨.sub _ _, rfl, wordB16_of_rowAdmits admits⟩
  · exact ⟨.cmpeq _ _, rfl, wordB16_of_rowAdmits admits⟩
  · exact ⟨.cmple _ _, rfl, wordB16_of_rowAdmits admits⟩
  · exact ⟨.cmplt _ _, rfl, wordB16_of_rowAdmits admits⟩
  · exact ⟨.cmpgt _ _, rfl, wordB16_of_rowAdmits admits⟩
  · exact ⟨.cmpge _ _, rfl, wordB16_of_rowAdmits admits⟩
  · exact ⟨.fromf _, rfl, wordU32_of_rowAdmits admits⟩
  · exact ⟨.tof _, rfl, wordU16_of_rowAdmits admits⟩
  · exact ⟨.fromi _, rfl, wordU32_of_rowAdmits admits⟩
  · exact ⟨.toi _, rfl, wordU16_of_rowAdmits admits⟩

/-- The word of a command is admitted by the command's row. -/
theorem rowAdmits_encode (i : Instr) : rowAdmits (rowOf i) (encode i) = true := by
  cases i with
  | getcfg => exact Laws.EncodeMatchesRow.wordN_row _
  | setfrac | setrnd | fromf | fromi => exact Laws.EncodeMatchesRow.wordU32_row _ _
  | sqr | sqrt | inv | neg | tof | toi => exact Laws.EncodeMatchesRow.wordU16_row _ _
  | mul | div | add | sub | cmpeq | cmple | cmplt | cmpgt | cmpge =>
    exact Laws.EncodeMatchesRow.wordB16_row _ _ _

/-- A row of the table admits exactly the words that decode to its commands. -/
theorem rowAdmits_iff_decode {r : Row} (mem : r ∈ opcodeTable) :
    rowAdmits r c = true ↔ ∃ i, decode c = .ok i ∧ rowOf i = r := by
  constructor
  · intro admits
    obtain ⟨i, row, word⟩ := exists_encode_of_rowAdmits mem admits
    exact ⟨i, by rw [← word, decode_encode], row⟩
  · rintro ⟨i, decoded, rfl⟩
    rw [← encode_of_decode decoded]
    exact rowAdmits_encode i

theorem rowMatch_eq_ofNat (r : Row) : rowMatch r = BitVec.ofNat 64 (r.op.toNat * 2 ^ 56) := by
  have word : rowMatch r = wordOf r.op.toNat 0 0 := wordN_eq_wordOf r.op
  rw [word, wordOf, Nat.zero_mul, Nat.add_zero]

/-- Settles O3: a row admits the words of its own commands, and a word decodes to one command only, so
to a command of one row. -/
theorem decodeAcceptsExactlyTheTable : Obligations.DecodeAcceptsExactlyTheTable := by
  refine ⟨⟨rfl, rfl, rfl, rfl⟩, fun r mem c => ?_, fun r mem r' mem' c admits admits' => ?_⟩
  · rw [← rowMatch_eq_ofNat, ← rowAdmits_iff_decode mem, rowAdmits, beq_iff_eq]
  · obtain ⟨i, decoded, row⟩ := (rowAdmits_iff_decode mem).mp admits
    obtain ⟨i', decoded', row'⟩ := (rowAdmits_iff_decode mem').mp admits'
    have same : i = i' := Except.ok.inj (decoded.symm.trans decoded')
    rw [← row, ← row', same]

end Sys2Proof.Proofs
end

section
/-! The port: what one step does to the inputs and the responses, and so what a run does to them
(30_encoding R37, R42, 20_memory R25). -/

open Sys2Proof.Machine

namespace Sys2Proof.Proofs

/-- Every command gives a next state, takes one input off the port and adds one response. -/
theorem exec_answers (i : Instr) (s : State) :
    ∃ t r, exec i s = .next t ∧ t.inputs = s.inputs.tail ∧ t.responses = s.responses ++ [r] := by
  obtain ⟨r, t, _, next, -, inputs, responses, -⟩ := commandsDependOnTheUnitOnly i s s ⟨rfl, rfl⟩
  exact ⟨t, r, next, inputs, responses⟩

variable {s : State} {rest : List Input}

/-- Settles O5, from the step on a decoded word and what every command does to the port. -/
theorem stepRunsTheDecodedCommand : Obligations.StepRunsTheDecodedCommand := by
  intro s c rest i head decoded
  obtain ⟨t, _, next, inputs, -⟩ := exec_answers i s
  exact ⟨step_of_decoded head decoded, t, next, by rw [inputs, head, List.tail_cons]⟩

theorem step_of_reset (head : s.inputs = .reset :: rest) : step s = .next (resetUnit s) := by
  simp only [step, accept_eq, head, List.head?_cons]

/-- A step on a presented word, legal or not, answers it. -/
theorem step_of_command {c : Word64} (head : s.inputs = .command c :: rest) :
    ∃ t r, step s = .next t ∧ t.inputs = rest ∧ t.responses = s.responses ++ [r] := by
  cases hc : decode c with
  | error why =>
    exact ⟨_, _, step_of_illegal head hc, by rw [answer_inputs, head, List.tail_cons],
      answer_responses ..⟩
  | ok i =>
    obtain ⟨t, r, next, inputs, responses⟩ := exec_answers i s
    exact ⟨t, r, (step_of_decoded head hc).trans next, by rw [inputs, head, List.tail_cons],
      responses⟩

/-- A step on any input uses it up and adds the responses due to it: one to a word, none to a reset. -/
theorem step_of_input {e : Input} (head : s.inputs = e :: rest) :
    ∃ t new, step s = .next t ∧ t.inputs = rest ∧ t.responses = s.responses ++ new ∧
      new.length = ([e].filter (· ≠ .reset)).length := by
  cases e with
  | reset =>
    exact ⟨_, [], step_of_reset head, by rw [resetUnit_inputs, head, List.tail_cons],
      by rw [resetUnit_responses, List.append_nil], rfl⟩
  | command c =>
    obtain ⟨t, r, next, inputs, responses⟩ := step_of_command head
    exact ⟨t, [r], next, inputs, responses, rfl⟩

/-- A run over the pending inputs uses them up and adds the responses due to them. -/
theorem run_inputs (pending : List Input) (s : State) (h : s.inputs = pending) :
    ∃ t new, Sys2Proof.core.run pending.length s = .next t ∧ t.inputs = [] ∧
      t.responses = s.responses ++ new ∧
      new.length = (pending.filter (· ≠ .reset)).length := by
  induction pending generalizing s with
  | nil => exact ⟨s, [], rfl, h, (List.append_nil _).symm, rfl⟩
  | cons e rest ih =>
    obtain ⟨t, new, next, inputs, responses, count⟩ := step_of_input h
    obtain ⟨u, later, run, done, responses', count'⟩ := ih t inputs
    refine ⟨u, new ++ later, (run_succ next _).trans run, done, ?_, ?_⟩
    · rw [responses', responses, List.append_assoc]
    · rw [List.length_append, count, count', ← List.length_append, ← List.filter_append,
        List.singleton_append]

/-- Settles O12: the run over the pending inputs. -/
theorem runAnswersEveryCommandOnce : Obligations.RunAnswersEveryCommandOnce := by
  intro s
  obtain ⟨t, new, run, done, responses, count⟩ := run_inputs s.inputs s rfl
  exact ⟨t, run, done, ⟨new, responses.symm⟩, by rw [responses, List.length_append, count]⟩

/-- The response word as a number: R, FAULT and NOTICE in their fields, every other bit zero
(30_encoding R37). -/
theorem responseWord_toNat (r : Response) :
    (responseWord r).toNat =
      (responseNotice r).toNat * 2 ^ 35 + (responseFault r).toNat * 2 ^ 32 + (responseR r).toNat := by
  simp only [responseWord, toNat_append_eq_add, BitVec.toNat_ofBool, BitVec.toNat_zero]
  omega

theorem responseWord_result (v : Word32) (notice : Bool) :
    responseWord (.result v notice) =
      BitVec.ofNat 64 (v.toNat + (if notice then 2 ^ 35 else 0)) := by
  have value : (responseWord (.result v notice)).toNat =
      v.toNat + (if notice then 2 ^ 35 else 0) := by
    rw [responseWord_toNat]
    cases notice with
    | false => simp [responseNotice, responseFault, responseR]
    | true => simp [responseNotice, responseFault, responseR, Nat.add_comm]
  rw [← value, BitVec.ofNat_toNat, BitVec.setWidth_eq]

theorem responseWord_fault (x : CommandFault) :
    responseWord (.fault x) = BitVec.ofNat 64 ((faultCode x).toNat * 2 ^ 32) := by
  have value : (responseWord (.fault x)).toNat = (faultCode x).toNat * 2 ^ 32 := by
    rw [responseWord_toNat]
    simp [responseNotice, responseFault, responseR]
  rw [← value, BitVec.ofNat_toNat, BitVec.setWidth_eq]

/-- Settles O7, from the step on a presented word and the fields of the response word. -/
theorem oneResponsePerCommand : Obligations.OneResponsePerCommand :=
  ⟨fun _ _ _ head => step_of_command head, responseWord_result,
    responseWord_fault .invalidFormat, responseWord_fault .invalidRoundingMode,
    responseWord_fault .negativeRadicand, responseWord_fault .illegalCommand⟩

end Sys2Proof.Proofs
end

section
/-! The printed form of a value (30_encoding R41): its groups are the consecutive binary digits of the
pattern. -/

open Sys2Proof.Machine

namespace Sys2Proof.Proofs

theorem binaryDigits_length (width n : Nat) : (binaryDigits width n).length = width := by
  induction width with
  | zero => rfl
  | succ width ih => rw [binaryDigits, List.length_cons, ih]

theorem ne_space_of_mem_binaryDigits {width n : Nat} {d : Char} (h : d ∈ binaryDigits width n) :
    d ≠ ' ' := by
  induction width with
  | zero => exact absurd h List.not_mem_nil
  | succ width ih =>
    obtain rfl | h := List.mem_cons.mp h
    · split <;> decide
    · exact ih h

/-- The spaces are not among the digits. -/
theorem filter_binaryDigits (width n : Nat) :
    (binaryDigits width n).filter (· ≠ ' ') = binaryDigits width n :=
  List.filter_eq_self.mpr fun _ h => decide_eq_true (ne_space_of_mem_binaryDigits h)

/-- The digits of a number's low bits are those of the number. -/
theorem binaryDigits_mod {width k : Nat} (n : Nat) (h : width ≤ k) :
    binaryDigits width (n % 2 ^ k) = binaryDigits width n := by
  induction width with
  | zero => rfl
  | succ width ih =>
    rw [binaryDigits, binaryDigits, ih (Nat.le_of_succ_le h), Nat.testBit_mod_two_pow,
      decide_eq_true (Nat.lt_of_succ_le h), Bool.true_and]

/-- The digits of a quotient and of the remainder are the high and the low digits of the number. -/
theorem binaryDigits_append (high low n : Nat) :
    binaryDigits high (n / 2 ^ low) ++ binaryDigits low (n % 2 ^ low) =
      binaryDigits (high + low) n := by
  induction high with
  | zero => rw [binaryDigits, List.nil_append, Nat.zero_add, binaryDigits_mod n le_rfl]
  | succ high ih =>
    rw [Nat.succ_add, binaryDigits, binaryDigits, List.cons_append, ih, Nat.testBit_div_two_pow]

/-- The integer and fraction bits are as many as the magnitude field (10_state R11). -/
theorem intBits_toNat {c : Cfg} (h : legalFrac c.f) : c.intBits.toNat = 15 - c.f.toNat := by
  obtain ⟨_, _⟩ := h
  rw [intBits_eq, BitVec.toNat_sub]
  simp
  omega

/-- The two groups after the sign are the fifteen digits of the magnitude field (10_state R14). -/
theorem binaryDigits_biased_fraction {c : Cfg} (x : Packed) (h : legalFrac c.f) :
    binaryDigits c.intBits.toNat (biasedOf c x) ++ binaryDigits c.f.toNat (fractionOf c x) =
      binaryDigits 15 x.toNat := by
  have width : c.intBits.toNat + c.f.toNat = 15 := by
    rw [intBits_toNat h]
    omega
  calc binaryDigits c.intBits.toNat (biasedOf c x) ++ binaryDigits c.f.toNat (fractionOf c x)
      = binaryDigits (c.intBits.toNat + c.f.toNat) (magnitudeOf x).toNat :=
        binaryDigits_append _ _ _
    _ = binaryDigits 15 x.toNat := by rw [width, magnitudeOf_toNat, binaryDigits_mod _ le_rfl]

theorem signOf_cons_binaryDigits (x : Packed) :
    (if signOf x then '1' else '0') :: binaryDigits 15 x.toNat = binaryDigits 16 x.toNat := rfl

/-- Without its two spaces the printed form is the sixteen digits of the pattern. -/
theorem printedValue_filter {c : Cfg} (x : Packed) (h : legalFrac c.f) :
    (printedValue c x).filter (· ≠ ' ') = binaryDigits 16 x.toNat := by
  have sign : (if signOf x then '1' else '0') ≠ ' ' := by split <;> decide
  rw [printedValue, List.filter_cons_of_pos (p := (· ≠ ' ')) (decide_eq_true sign),
    List.filter_cons_of_neg (by decide), List.filter_append, List.filter_cons_of_neg (by decide),
    filter_binaryDigits, filter_binaryDigits, binaryDigits_biased_fraction x h,
    signOf_cons_binaryDigits]

/-- The second space stands behind the sign, the first space and the I integer digits. -/
theorem printedValue_second_space (c : Cfg) (x : Packed) :
    (printedValue c x)[c.intBits.toNat + 2]? = some ' ' := by
  rw [printedValue, List.getElem?_cons_succ, List.getElem?_cons_succ,
    List.getElem?_append_right (binaryDigits_length ..).le, binaryDigits_length, Nat.sub_self,
    List.getElem?_cons_zero]

/-- Settles O57, from the lengths of the groups and their digits. -/
theorem printedValueGroupsTheBits : Obligations.PrintedValueGroupsTheBits := by
  intro c x legal
  have width : c.intBits.toNat = 15 - c.f.toNat := intBits_toNat legal
  have secondSpace : 17 - c.f.toNat = c.intBits.toNat + 2 := by omega
  refine ⟨?_, rfl, ?_, printedValue_filter x legal⟩
  · simp only [printedValue, List.length_cons, List.length_append, binaryDigits_length]
    omega
  · rw [secondSpace]
    exact printedValue_second_space c x

end Sys2Proof.Proofs
end

section
/-! The three configuration commands (40_config R45 to R49): what GETCFG reads, when SETFRAC and SETRND
accept their operand, and what a rebuild in another mode leaves as it was. -/

open Sys2Proof Sys2Proof.Machine Sys2Proof.Config

namespace Sys2Proof.Proofs

/-- The field I for every stored `f`, legal or not: a 4-bit `15 - f` does not wrap. -/
theorem intBits_toNat_eq (c : Cfg) : c.intBits.toNat = 15 - c.f.toNat := by
  have fits : c.f ≤ 15 := BitVec.le_def.mpr (Nat.le_of_lt_succ c.f.isLt)
  rw [intBits_eq, BitVec.toNat_sub_of_le fits]
  rfl

theorem rmodeBit_toNat (r : RMode) : (rmodeBit r).toNat = if r = .lin then 0 else 1 := by
  cases r <;> rfl

/-- The word GETCFG answers with, by its three fields (40_config R45). -/
theorem cfgWord_toNat (c : Cfg) :
    (cfgWord c).toNat =
      c.f.toNat + 16 * (15 - c.f.toNat) + 256 * (if c.rmode = .lin then 0 else 1) := by
  have fields : (cfgWord c).toNat =
      (rmodeBit c.rmode).toNat * 2 ^ 8 + c.intBits.toNat * 2 ^ 4 + c.f.toNat := by
    simp only [cfgWord, toNat_append_eq_add, BitVec.toNat_zero]
    omega
  rw [fields, intBits_toNat_eq, rmodeBit_toNat]
  omega

/-- Settles O19: the word of format N, and the fields of the word answered. -/
theorem getcfgReadsTheConfiguration : Obligations.GetcfgReadsTheConfiguration :=
  ⟨wordN_eq_wordOf _, fun s => ⟨cfgWord s.cfg, exec_getcfg s, cfgWord_toNat s.cfg⟩⟩

/-- SETFRAC's operand names the legal `f` that has its value. -/
theorem fracOperand_of_toNat {n : Word32} {f : BitVec 4} (value : n.toNat = f.toNat)
    (legal : legalFrac f) : fracOperand n = some f := by
  have stored : f = BitVec.ofNat 4 n.toNat := by rw [value, BitVec.ofNat_toNat, BitVec.setWidth_eq]
  have range : 7 ≤ n.toNat ∧ n.toNat ≤ 11 := by rwa [value]
  exact (fracOperand_eq_some n f).mpr ⟨range, stored⟩

/-- SETRND's operand names the mode that has its value. -/
theorem rmodeOperand_of_toNat {m : Word32} {r : RMode} (value : m.toNat = if r = .lin then 0 else 1) :
    rmodeOperand m = some r := by
  rw [rmodeOperand_eq_some]
  cases r with
  | lin => exact .inl ⟨value, rfl⟩
  | log => exact .inr ⟨value, rfl⟩

/-- Settles O20: SETFRAC's word, and its two outcomes by the range of the operand. -/
theorem setfracSetsTheFractionWidth : Obligations.SetfracSetsTheFractionWidth := by
  intro s n
  refine ⟨wordU32_eq_wordOf _ n, fun low high => ?_, fun outside => ?_⟩
  · have stored : (BitVec.ofNat 4 n.toNat).toNat = n.toNat := by
      rw [BitVec.toNat_ofNat, Nat.mod_eq_of_lt (high.trans_lt (by decide))]
    have legal : legalFrac (BitVec.ofNat 4 n.toNat) := by
      rw [legalFrac, stored]
      exact ⟨low, high⟩
    exact ⟨_, stored, exec_setfrac_of_legal s (fracOperand_of_toNat stored.symm legal)⟩
  · exact exec_setfrac_of_illegal s ((fracOperand_eq_none n).mpr outside)

section
/-! Two units that differ in `rmode` and LOG2T only read the same linear values (40_config R47 (c)). -/

variable {c c' : Cfg} {t t' : Lut}

/-- `Linear` reads `f` and EXP2T, neither `rmode` nor LOG2T (42_codec R69). -/
theorem linear_congr (frac : c.f = c'.f) (exp2 : t.exp2t = t'.exp2t) (K : Int) :
    linear c t K = linear c' t' K := by
  simp only [linear, exp2Lookup, exp2Entry, gridIndex, octave, Cfg.gridPoints, frac, exp2]

theorem toFloat_congr (frac : c.f = c'.f) (exp2 : t.exp2t = t'.exp2t) (a : Packed) :
    toFloat c t a = toFloat c' t' a := by
  simp only [toFloat, linear_congr frac exp2]

theorem toInt_congr (frac : c.f = c'.f) (exp2 : t.exp2t = t'.exp2t) (a : Packed) :
    toInt c t a = toInt c' t' a := by
  simp only [toInt, linear_congr frac exp2]

end

/-- Two states with the same `f` and the same EXP2T answer these commands alike: only TOF and TOI read
the unit, and they read no more than that (40_config R47 (c)). -/
theorem exec_alike_of_exp2t {s t : State} (frac : s.cfg.f = t.cfg.f)
    (exp2 : s.lut.exp2t = t.lut.exp2t) (a b : Packed) :
    ∀ i ∈ [Instr.mul a b, .div a b, .sqr a, .inv a, .neg a, .cmpeq a b, .cmple a b, .cmplt a b,
      .cmpgt a b, .cmpge a b, .tof a, .toi a],
      ∃ v, exec i s = .next (answered s v) ∧ exec i t = .next (answered t v) := by
  have tof : exec (.tof a) t = .next (answered t (toFloat s.cfg s.lut a)) := by
    rw [exec_tof, respond_eq_answer, answer_eq, toFloat_congr frac exp2]
  have toi : exec (.toi a) t = .next (answered t (toInt s.cfg s.lut a)) := by
    rw [exec_toi, respond_eq_answer, answer_eq, toInt_congr frac exp2]
  simp only [List.forall_mem_cons]
  exact ⟨⟨_, exec_mul .., exec_mul ..⟩, ⟨_, exec_div .., exec_div ..⟩, ⟨_, exec_sqr .., exec_sqr ..⟩,
    ⟨_, exec_inv .., exec_inv ..⟩, ⟨_, exec_neg .., exec_neg ..⟩,
    ⟨_, exec_cmpeq .., exec_cmpeq ..⟩, ⟨_, exec_cmple .., exec_cmple ..⟩,
    ⟨_, exec_cmplt .., exec_cmplt ..⟩, ⟨_, exec_cmpgt .., exec_cmpgt ..⟩,
    ⟨_, exec_cmpge .., exec_cmpge ..⟩, ⟨_, exec_tof .., tof⟩, ⟨_, exec_toi .., toi⟩,
    List.forall_mem_nil _⟩

/-- Settles O21: SETRND's word, its two outcomes by the value of the operand, and the commands that do
not see the mode, for which the rebuilt table has the same EXP2T. -/
theorem setrndSetsTheRoundingMode : Obligations.SetrndSetsTheRoundingMode := by
  intro s m
  refine ⟨wordU32_eq_wordOf _ m, fun r value => ?_, fun outside => ?_, rebuild_exp2t_mode .., ?_⟩
  · exact exec_setrnd_of_legal s (rmodeOperand_of_toNat value)
  · exact exec_setrnd_of_illegal s ((rmodeOperand_eq_none m).mpr outside)
  · rintro ⟨-, built⟩ r a b t other
    have frac : s.cfg.f = t.cfg.f := by rw [other]
    have exp2 : s.lut.exp2t = t.lut.exp2t := by
      rw [built, other]
      exact rebuild_exp2t_mode ..
    exact exec_alike_of_exp2t frac exp2 a b

/-- Writing the configuration held changes nothing: the table is already its rebuild (10_state R13). -/
theorem reconfigure_held {s : State} (hs : Inv s) : reconfigure s.cfg s = s := by
  rw [reconfigure, ← hs.2]

/-- Settles O22: the operand names the held value, and the write of it changes nothing. -/
theorem writingTheHeldValueKeepsTheUnit : Obligations.WritingTheHeldValueKeepsTheUnit := by
  intro s hs
  refine ⟨fun n value => ?_, fun m value => ?_⟩
  · have h := exec_setfrac_of_legal s (fracOperand_of_toNat value hs.1)
    rwa [reconfigure_held hs] at h
  · have h := exec_setrnd_of_legal s (rmodeOperand_of_toNat value)
    rwa [reconfigure_held hs] at h

end Sys2Proof.Proofs
end

section
/-! The entry search and the real number it approximates (41_lut R51, R53): the exact integer test has
one solution, and that solution is within half a unit of a point of the octave. -/

open Sys2Proof.Machine

namespace Sys2Proof.Proofs

/-- `2^32 * (2^t - 1)`: the 32-bit fraction of `2^t` before rounding (41_lut R51, R53). -/
noncomputable def octavePoint (t : ℝ) : ℝ := 2 ^ 32 * ((2 : ℝ) ^ t - 1)

/-- The entry is the one integer of the exact test of 41_lut R51 and R53. -/
theorem test_iff_eq_nearestEntry {q p x : Nat} (hp : p < q) (hq : q ≤ 4096) :
    ((2 * (2 ^ 32 + x) - 1) ^ q ≤ 2 ^ (33 * q + p) ∧
      2 ^ (33 * q + p) < (2 * (2 ^ 32 + x) + 1) ^ q) ↔ x = nearestEntry q p := by
  have successor : 2 * (2 ^ 32 + x) + 1 = 2 * (2 ^ 32 + (x + 1)) - 1 := by omega
  rw [successor, ← notAbove_iff, ← not_notAbove_iff]
  obtain ⟨passes, fails⟩ := nearestEntry_spec hp hq
  constructor
  · rintro ⟨xPasses, xFails⟩
    have upper : x < nearestEntry q p + 1 := by
      by_contra! h
      simp [notAbove_antitone h xPasses] at fails
    have lower : nearestEntry q p < x + 1 := by
      by_contra! h
      simp [notAbove_antitone h passes] at xFails
    omega
  · rintro rfl
    exact ⟨passes, fails⟩

/-- The exact test with its `q`-th root taken: a solution is within half a unit of the real number. -/
theorem abs_sub_octavePoint_le {q p x : Nat} (hq : 0 < q)
    (lower : (2 * (2 ^ 32 + x) - 1) ^ q ≤ 2 ^ (33 * q + p))
    (upper : 2 ^ (33 * q + p) < (2 * (2 ^ 32 + x) + 1) ^ q) :
    |(x : ℝ) - octavePoint (p / q)| ≤ 1 / 2 := by
  have root : ((2 : ℝ) ^ 33 * 2 ^ ((p : ℝ) / q)) ^ q = 2 ^ (33 * q + p) := by
    rw [mul_pow, ← pow_mul, ← Real.rpow_mul_natCast zero_le_two, div_mul_cancel₀ _ (by positivity),
      Real.rpow_natCast, pow_add]
  have pred : ((2 * (2 ^ 32 + x) - 1 : ℕ) : ℝ) = 2 * (2 ^ 32 + x) - 1 := by
    rw [Nat.cast_sub (by omega)]
    norm_num
  have above : (2 * (2 ^ 32 + x) - 1 : ℝ) ≤ 2 ^ 33 * 2 ^ ((p : ℝ) / q) := by
    refine le_of_pow_le_pow_left₀ hq.ne' (by positivity) ?_
    rw [root, ← pred]
    exact_mod_cast lower
  have below : 2 ^ 33 * 2 ^ ((p : ℝ) / q) < (2 * (2 ^ 32 + x) + 1 : ℝ) := by
    refine lt_of_pow_lt_pow_left₀ q (by positivity) ?_
    rw [root]
    exact_mod_cast upper
  rw [octavePoint, abs_le]
  constructor <;> linarith

theorem nearestEntry_near {q p : Nat} (hp : p < q) (hq : q ≤ 4096) :
    |(nearestEntry q p : ℝ) - octavePoint (p / q)| ≤ 1 / 2 := by
  obtain ⟨lower, upper⟩ := (test_iff_eq_nearestEntry hp hq).mpr rfl
  exact abs_sub_octavePoint_le (by omega) lower upper

/-- Points of the octave at least half the finest grid step apart are far apart against the rounding of
an entry, because `2^t` is at least `1 + t/2`. -/
theorem octavePoint_gap {a b : ℝ} (ha : 0 ≤ a) (hab : a + 1 / 4096 ≤ b) :
    octavePoint a + 5 ≤ octavePoint b := by
  have slope : 1 + 1 / 8192 ≤ (2 : ℝ) ^ (b - a) := by
    rw [Real.rpow_def_of_pos two_pos]
    have := Real.add_one_le_exp (Real.log 2 * (b - a))
    nlinarith [Real.log_two_gt_d9]
  have split : (2 : ℝ) ^ b = 2 ^ a * 2 ^ (b - a) := by rw [← Real.rpow_add two_pos]; ring_nf
  have start : 1 ≤ (2 : ℝ) ^ a := Real.one_le_rpow one_le_two ha
  rw [octavePoint, octavePoint, split]
  nlinarith

/-- Integers within half a unit of two such points keep the points' order. -/
theorem add_four_le_of_near {a b : ℝ} {x y : Nat} (ha : 0 ≤ a) (hab : a + 1 / 4096 ≤ b)
    (hx : |(x : ℝ) - octavePoint a| ≤ 1 / 2) (hy : |(y : ℝ) - octavePoint b| ≤ 1 / 2) :
    x + 4 ≤ y := by
  have gap := octavePoint_gap ha hab
  rw [abs_le] at hx hy
  have : (x : ℝ) + 4 ≤ y := by linarith
  exact_mod_cast this

end Sys2Proof.Proofs
end

section
/-! The values `Rebuild` writes: each lies within half a unit of its point of the octave, and in both
modes the threshold lies strictly between its two grid fractions (41_lut R54). -/

open Sys2Proof.Machine

namespace Sys2Proof.Proofs

variable {F : Nat}

theorem gridFraction_self : gridFraction F F = 2 ^ 32 := if_pos rfl

theorem gridFraction_of_lt {i : Nat} (hi : i < F) : gridFraction F i = nearestEntry F i :=
  if_neg hi.ne

/-- `E[F]` is exact: it is the point at the end of the octave. -/
theorem gridFraction_near {i : Nat} (pos : 0 < F) (hF : F ≤ 2048) (hi : i ≤ F) :
    |(gridFraction F i : ℝ) - octavePoint (i / F)| ≤ 1 / 2 := by
  obtain hlt | rfl := hi.lt_or_eq
  · rw [gridFraction_of_lt hlt]
    exact nearestEntry_near hlt (by omega)
  · rw [gridFraction_self, octavePoint, div_self (by positivity)]
    norm_num

theorem gridFraction_add_four_le {i j : Nat} (hF : F ≤ 2048) (hij : i < j) (hj : j ≤ F) :
    gridFraction F i + 4 ≤ gridFraction F j := by
  have pos : (0 : ℝ) < F := by exact_mod_cast (show 0 < F by omega)
  refine add_four_le_of_near (by positivity) ?_ (gridFraction_near (by omega) hF (by omega))
    (gridFraction_near (by omega) hF hj)
  have hF' : (F : ℝ) ≤ 2048 := by exact_mod_cast hF
  have hij' : (i : ℝ) + 1 ≤ j := by exact_mod_cast hij
  field_simp
  linarith

/-- The log threshold is within half a unit of the point midway, in log space, between its two grid
points (41_lut R53). -/
theorem log2Value_log_near {i : Nat} (hF : F ≤ 2048) (hi : i < F) :
    |(log2Value F .log i : ℝ) - octavePoint ((2 * i + 1) / (2 * F))| ≤ 1 / 2 := by
  have near := nearestEntry_near (q := 2 * F) (p := 2 * i + 1) (by omega) (by omega)
  push_cast at near
  exact near

theorem log2Value_lin_between {i : Nat} (hF : F ≤ 2048) (hi : i < F) :
    gridFraction F i < log2Value F .lin i ∧ log2Value F .lin i < gridFraction F (i + 1) := by
  have gap := gridFraction_add_four_le hF (Nat.lt_add_one i) hi
  simp only [log2Value, linThreshold]
  split <;> omega

theorem log2Value_log_between {i : Nat} (hF : F ≤ 2048) (hi : i < F) :
    gridFraction F i < log2Value F .log i ∧ log2Value F .log i < gridFraction F (i + 1) := by
  have pos : (0 : ℝ) < F := by exact_mod_cast (show 0 < F by omega)
  have hF' : (F : ℝ) ≤ 2048 := by exact_mod_cast hF
  have mid := log2Value_log_near hF hi
  have below : gridFraction F i + 4 ≤ log2Value F .log i := by
    refine add_four_le_of_near (by positivity) ?_ (gridFraction_near (by omega) hF hi.le) mid
    field_simp
    linarith
  have above : log2Value F .log i + 4 ≤ gridFraction F (i + 1) := by
    refine add_four_le_of_near (by positivity) ?_ mid (gridFraction_near (by omega) hF hi)
    push_cast
    field_simp
    linarith
  omega

/-- The order of 41_lut R54, before the values are stored as 32-bit entries. -/
theorem log2Value_between {i : Nat} (mode : Config.RMode) (hF : F ≤ 2048) (hi : i < F) :
    gridFraction F i < log2Value F mode i ∧ log2Value F mode i < gridFraction F (i + 1) := by
  cases mode with
  | lin => exact log2Value_lin_between hF hi
  | log => exact log2Value_log_between hF hi

theorem gridFraction_le {i : Nat} (hF : F ≤ 2048) (hi : i ≤ F) : gridFraction F i ≤ 2 ^ 32 := by
  obtain hlt | rfl := hi.lt_or_eq
  · have := gridFraction_add_four_le hF hlt le_rfl
    rw [gridFraction_self] at this
    omega
  · exact gridFraction_self.le

/-- Every threshold fits an entry (41_lut R54). -/
theorem log2Value_lt {i : Nat} (mode : Config.RMode) (hF : F ≤ 2048) (hi : i < F) :
    log2Value F mode i < 2 ^ 32 :=
  (log2Value_between mode hF hi).2.trans_le (gridFraction_le hF hi)

theorem rebuild_exp2t_getD {f : BitVec 4} (mode : Config.RMode) {i : Nat} (hi : i < gridPoints f) :
    ((rebuild f mode).exp2t.getD i 0).toNat = exp2Value (gridPoints f) i := by
  have fits : exp2Value (gridPoints f) i < 4294967296 := nearestEntry_lt _ _
  simpa [rebuild, hi] using fits

theorem rebuild_log2t_getD {f : BitVec 4} (mode : Config.RMode) {i : Nat} (hf : gridPoints f ≤ 2048)
    (hi : i < gridPoints f) :
    ((rebuild f mode).log2t.getD i 0).toNat = log2Value (gridPoints f) mode i := by
  have fits : log2Value (gridPoints f) mode i < 4294967296 := log2Value_lt mode hf hi
  simpa [rebuild, hi] using fits

end Sys2Proof.Proofs
end

section
/-! The table of a state with the invariant, entry by entry (41_lut R50 to R54). -/

open Sys2Proof.Machine

namespace Sys2Proof.Proofs

variable {s : State}

theorem gridOf_pos (s : State) : 0 < gridOf s := gridPoints_pos s.cfg.f

theorem gridOf_le (hs : Inv s) : gridOf s ≤ 2048 := gridPoints_le hs.1

/-- The array with `E[F]` put behind it is the grid fractions, none of them cut to 32 bits. -/
theorem tableE_eq (hs : Inv s) {i : Nat} (hi : i ≤ gridOf s) :
    tableE s i = gridFraction (gridOf s) i := by
  obtain hlt | rfl := hi.lt_or_eq
  · rw [gridFraction_of_lt hlt, tableE, if_neg hlt.ne, hs.2]
    exact rebuild_exp2t_getD _ hlt
  · rw [gridFraction_self, tableE, if_pos rfl]

theorem tableE_eq_nearestEntry (hs : Inv s) {i : Nat} (hi : i < gridOf s) :
    tableE s i = nearestEntry (gridOf s) i := by
  rw [tableE_eq hs hi.le, gridFraction_of_lt hi]

theorem tableT_eq (hs : Inv s) {i : Nat} (hi : i < gridOf s) :
    tableT s i = log2Value (gridOf s) s.cfg.rmode i := by
  rw [tableT, hs.2]
  exact rebuild_log2t_getD _ (gridOf_le hs) hi

theorem tableE_lt_tableE (hs : Inv s) {i j : Nat} (hij : i < j) (hj : j ≤ gridOf s) :
    tableE s i < tableE s j := by
  have := gridFraction_add_four_le (gridOf_le hs) hij hj
  rw [tableE_eq hs (hij.le.trans hj), tableE_eq hs hj]
  omega

theorem tableE_le_tableE (hs : Inv s) {i j : Nat} (hij : i ≤ j) (hj : j ≤ gridOf s) :
    tableE s i ≤ tableE s j := by
  obtain hlt | rfl := hij.lt_or_eq
  · exact (tableE_lt_tableE hs hlt hj).le
  · exact le_rfl

theorem tableT_between (hs : Inv s) {i : Nat} (hi : i < gridOf s) :
    tableE s i < tableT s i ∧ tableT s i < tableE s (i + 1) := by
  rw [tableE_eq hs hi.le, tableE_eq hs hi, tableT_eq hs hi]
  exact log2Value_between _ (gridOf_le hs) hi

theorem tableT_le_tableT (hs : Inv s) {i j : Nat} (hij : i ≤ j) (hj : j < gridOf s) :
    tableT s i ≤ tableT s j := by
  obtain hlt | rfl := hij.lt_or_eq
  · have below := (tableT_between hs (hlt.trans hj)).2
    have middle := tableE_le_tableE hs (Order.add_one_le_of_lt hlt) hj.le
    have above := (tableT_between hs hj).1
    omega
  · exact le_rfl

/-- The lin threshold from the entries themselves (41_lut R52). -/
theorem tableT_lin (hs : Inv s) (mode : s.cfg.rmode = .lin) {i : Nat} (hi : i < gridOf s) :
    tableT s i = linThreshold i (tableE s i + tableE s (i + 1)) := by
  rw [tableT_eq hs hi, tableE_eq hs hi.le, tableE_eq hs hi, mode, log2Value]

/-- What a lin threshold separates: of a linear fraction midway between two grid significands, the one
of even index takes it (41_lut R52). -/
theorem tableT_le_iff_of_lin (hs : Inv s) (mode : s.cfg.rmode = .lin) {i : Nat} (hi : i < gridOf s)
    (m : Nat) : tableT s i ≤ m ↔ tableE s i + tableE s (i + 1) < 2 * m ∨
      (2 * m = tableE s i + tableE s (i + 1) ∧ i % 2 = 1) := by
  rw [tableT_lin hs mode hi, linThreshold]
  split <;> omega

theorem tableT_log (hs : Inv s) (mode : s.cfg.rmode = .log) {i : Nat} (hi : i < gridOf s) :
    tableT s i = nearestEntry (2 * gridOf s) (2 * i + 1) := by
  rw [tableT_eq hs hi, mode, log2Value]

theorem tableT_log_near (hs : Inv s) (mode : s.cfg.rmode = .log) {i : Nat} (hi : i < gridOf s) :
    |(tableT s i : ℝ) - octavePoint ((2 * i + 1) / (2 * (gridOf s : ℕ)))| ≤ 1 / 2 := by
  rw [tableT_eq hs hi, mode]
  exact log2Value_log_near (gridOf_le hs) hi

/-- Settles O31: the entries are the search's answers, and `0` passes the exact test of index 0. -/
theorem exp2EntriesAreNearest : Obligations.Exp2EntriesAreNearest := by
  intro s hs i hi
  have small : gridOf s ≤ 4096 := (gridOf_le hs).trans (by norm_num)
  have first : 0 = nearestEntry (gridOf s) 0 := by
    refine (test_iff_eq_nearestEntry (gridOf_pos s) small).mp
      ⟨(notAbove_iff ..).mp (notAbove_zero ..), ?_⟩
    rw [Nat.add_zero (33 * _), pow_mul]
    exact Nat.pow_lt_pow_left (by norm_num) (gridOf_pos s).ne'
  have mode : ∀ m, (rebuild s.cfg.f m).exp2t = s.lut.exp2t := by
    intro m
    rw [hs.2]
    exact rebuild_exp2t_mode ..
  rw [tableE_eq_nearestEntry hs hi, tableE_eq_nearestEntry hs (gridOf_pos s)]
  exact ⟨fun x => test_iff_eq_nearestEntry hi small, nearestEntry_near hi small,
    nearestEntry_lt _ _, first.symm, mode⟩

/-- Settles O32, from the threshold's equation and what it separates. -/
theorem linThresholdsAreMidpoints : Obligations.LinThresholdsAreMidpoints := by
  rintro s hs mode i hi x rfl
  refine ⟨fun xEven iEven => ?_, fun xEven iOdd => ?_, fun xOdd => ?_,
    tableT_le_iff_of_lin hs mode hi⟩
  · rw [tableT_lin hs mode hi, linThreshold, if_pos ⟨xEven, iEven⟩]
  · rw [tableT_lin hs mode hi, linThreshold, if_neg (by omega)]
    omega
  · rw [tableT_lin hs mode hi, linThreshold, if_neg (by omega)]

/-- Settles O33: the thresholds are the search's answers for the odd half steps of the grid. -/
theorem logThresholdsAreLogMidpoints : Obligations.LogThresholdsAreLogMidpoints := by
  intro s hs mode i hi
  refine ⟨fun x => ?_, ?_⟩
  · have exponent : 66 * gridOf s + 2 * i + 1 = 33 * (2 * gridOf s) + (2 * i + 1) := by ring
    have small := gridOf_le hs
    rw [tableT_log hs mode hi, exponent]
    exact test_iff_eq_nearestEntry (by omega) (by omega)
  · exact tableT_log_near hs mode hi

end Sys2Proof.Proofs
end

section
/-! The lookup as a search: because the thresholds increase, their number at or below `m` separates the
indices with `LOG2T[k] <= m` from the others (41_lut R56). -/

open Sys2Proof.Machine

namespace Sys2Proof.Proofs

/-- If a property of the numbers below `F` holds below every number that has it, its count separates the
numbers that have it from those that do not. -/
theorem lt_countP_range_iff {p : Nat → Bool} {F : Nat}
    (down : ∀ k j, k ≤ j → j < F → p j = true → p k = true) {k : Nat} (hk : k < F) :
    k < (List.range F).countP p ↔ p k = true := by
  induction F with
  | zero => omega
  | succ F ih =>
    rw [List.range_succ, List.countP_append, List.countP_singleton]
    by_cases last : p F = true
    · have all : (List.range F).countP p = F := by
        conv_rhs => rw [← List.length_range (n := F)]
        rw [List.countP_eq_length]
        intro j hj
        exact down j F (List.mem_range.mp hj).le (Nat.lt_add_one F) last
      simp only [all, last, if_true, hk, down k F (by omega) (Nat.lt_add_one F) last]
    · have bound : (List.range F).countP p ≤ F :=
        List.countP_le_length.trans List.length_range.le
      rw [if_neg last, Nat.add_zero]
      obtain hlt | rfl := (Nat.lt_succ_iff.mp hk).lt_or_eq
      · exact ih (fun k j hkj hj => down k j hkj (by omega)) hlt
      · exact iff_of_false (by omega) last

variable {s : State}

theorem log2t_length (hs : Inv s) : s.lut.log2t.length = gridOf s := by
  rw [hs.2]
  exact rebuild_log2t_length ..

theorem roundIndex_le (hs : Inv s) (m : Nat) : roundIndex s m ≤ gridOf s :=
  List.countP_le_length.trans (log2t_length hs).le

theorem roundIndex_eq_countP_range (hs : Inv s) (m : Nat) :
    roundIndex s m = (List.range (gridOf s)).countP fun k => tableT s k ≤ m := by
  have entries : s.lut.log2t = (List.range (gridOf s)).map fun k => s.lut.log2t.getD k 0 := by
    refine List.ext_getElem (by simp [log2t_length hs]) fun k hk _ => ?_
    simp [hk]
  rw [roundIndex, entries, List.countP_map]
  rfl

theorem lt_roundIndex_iff (hs : Inv s) {k : Nat} (hk : k < gridOf s) (m : Nat) :
    k < roundIndex s m ↔ tableT s k ≤ m := by
  rw [roundIndex_eq_countP_range hs, lt_countP_range_iff _ hk, decide_eq_true_iff]
  intro k j hkj hj atMost
  rw [decide_eq_true_iff] at *
  exact (tableT_le_tableT hs hkj hj).trans atMost

/-- The threshold of the index `m` rounds to is above `m`. -/
theorem lt_tableT_roundIndex (hs : Inv s) {m : Nat} (h : roundIndex s m < gridOf s) :
    m < tableT s (roundIndex s m) := by
  have := (lt_roundIndex_iff hs h m).not.mp (lt_irrefl _)
  omega

/-- The thresholds before the index `m` rounds to are at most `m`. -/
theorem tableT_le_of_lt_roundIndex (hs : Inv s) {m k : Nat} (h : k < roundIndex s m) :
    tableT s k ≤ m :=
  (lt_roundIndex_iff hs (h.trans_le (roundIndex_le hs m)) m).mp h

/-- A grid value rounds to its own index (41_lut R54): the thresholds beside it are on its two sides. -/
theorem roundIndex_tableE (hs : Inv s) {i : Nat} (hi : i < gridOf s) :
    roundIndex s (tableE s i) = i := by
  obtain low | same | high := lt_trichotomy (roundIndex s (tableE s i)) i
  · have above := lt_tableT_roundIndex hs (low.trans hi)
    have below := (tableT_between hs (low.trans hi)).2
    have order := tableE_le_tableE hs (Order.add_one_le_of_lt low) hi.le
    omega
  · exact same
  · have below := tableT_le_of_lt_roundIndex hs high
    have above := (tableT_between hs hi).1
    omega

/-- Settles O34, from the order of the values `Rebuild` writes. -/
theorem tableEntriesAreOrdered : Obligations.TableEntriesAreOrdered := by
  intro s hs
  have length : s.lut.exp2t.length = gridOf s := by
    rw [hs.2]
    exact rebuild_exp2t_length ..
  refine ⟨length, log2t_length hs, fun i hi => ?_⟩
  obtain ⟨below, above⟩ := tableT_between hs hi
  exact ⟨below, above, roundIndex_tableE hs hi⟩

/-- Settles O35: the table of a state with the invariant is read without a free value, and the count of
an increasing array's entries is a least index. -/
theorem log2LookupIsTheLeastIndex : Obligations.Log2LookupIsTheLeastIndex := by
  intro s hs m _
  have lookup : log2Lookup s.lut (gridOf s) m = roundIndex s m := by
    have read : log2Entries s.lut (gridOf s) = s.lut.log2t := by
      rw [hs.2]
      exact log2Entries_rebuild ..
    rw [log2Lookup, read]
  refine ⟨lookup, roundIndex_le hs m, ?_, fun k => tableT_le_of_lt_roundIndex hs⟩
  exact (roundIndex_le hs m).eq_or_lt.imp_right (lt_tableT_roundIndex hs)

/-- In lin mode `m` is nearer to the grid significand of its index than to any later one, unless it is
midway and its index is even. -/
theorem lin_nearer_than_later (hs : Inv s) (mode : s.cfg.rmode = .lin) {m j : Nat}
    (later : roundIndex s m < j) (hj : j ≤ gridOf s) :
    2 * m < tableE s (roundIndex s m) + tableE s j ∨
      (2 * m = tableE s (roundIndex s m) + tableE s j ∧ roundIndex s m % 2 = 0) := by
  have inGrid := later.trans_le hj
  have above := lt_tableT_roundIndex hs inGrid
  rw [← not_le, tableT_le_iff_of_lin hs mode inGrid] at above
  have order := tableE_le_tableE hs (Order.add_one_le_of_lt later) hj
  omega

/-- The same for an earlier grid significand: the index before the one of `m` is odd in a tie. -/
theorem lin_nearer_than_earlier (hs : Inv s) (mode : s.cfg.rmode = .lin) {m j : Nat}
    (earlier : j < roundIndex s m) :
    tableE s j + tableE s (roundIndex s m) < 2 * m ∨
      (2 * m = tableE s j + tableE s (roundIndex s m) ∧ roundIndex s m % 2 = 0) := by
  obtain ⟨k, hk⟩ := Nat.exists_eq_add_one.mpr (Nat.zero_lt_of_lt earlier)
  have inGrid : k < gridOf s := by
    have := roundIndex_le hs m
    omega
  have below := tableT_le_of_lt_roundIndex hs (m := m) (k := k) (by omega)
  rw [tableT_le_iff_of_lin hs mode inGrid] at below
  have order := tableE_le_tableE hs (show j ≤ k by omega) inGrid.le
  rw [hk]
  omega

/-- Settles O36, by the side of `m`'s own index on which the other one lies. -/
theorem linLookupRoundsToNearest : Obligations.LinLookupRoundsToNearest := by
  intro s hs mode m _ j hj
  obtain earlier | rfl | later := lt_trichotomy j (roundIndex s m)
  · have nearer := lin_nearer_than_earlier hs mode earlier
    have order := tableE_lt_tableE hs earlier (roundIndex_le hs m)
    omega
  · exact ⟨le_rfl, fun _ => .inl rfl⟩
  · have nearer := lin_nearer_than_later hs mode later hj
    have order := tableE_lt_tableE hs later hj
    omega

/-- Settles O37: `m` is at least the threshold before its index and below the threshold of its index,
and a log threshold is within half a unit of the midpoint in log space. -/
theorem logLookupRoundsInLogSpace : Obligations.LogLookupRoundsInLogSpace := by
  rintro s hs mode m - n rfl
  refine ⟨fun notFirst => ?_, fun notLast => ?_⟩
  · obtain ⟨k, hk⟩ := Nat.exists_eq_add_one.mpr (Nat.pos_of_ne_zero notFirst)
    have inGrid : k < gridOf s := by
      have := roundIndex_le hs m
      omega
    have below : (tableT s k : ℝ) ≤ m := by
      exact_mod_cast tableT_le_of_lt_roundIndex hs (m := m) (k := k) (by omega)
    have near := (abs_le.mp (tableT_log_near hs mode inGrid)).1
    have midpoint : (2 * (roundIndex s m : ℕ) - 1 : ℝ) = 2 * k + 1 := by
      rw [hk]
      push_cast
      ring
    rw [octavePoint] at near
    rw [midpoint]
    linarith
  · have inGrid := lt_of_le_of_ne (roundIndex_le hs m) notLast
    have above : (m : ℝ) < tableT s (roundIndex s m) := by
      exact_mod_cast lt_tableT_roundIndex hs inGrid
    have near := (abs_le.mp (tableT_log_near hs mode inGrid)).2
    rw [octavePoint] at near
    linarith

end Sys2Proof.Proofs
end

section
/-! `Pack` and the rounding of half grid units (42_codec R63, R65, R66): what the three fields of a packed
pattern are for every exponent. -/

open Sys2Proof.Machine

namespace Sys2Proof.Proofs

theorem signNat_eq (x : Packed) : signNat x = (signOf x).toNat := by
  have fields := packed_toNat x
  have := magnitudeOf_lt x
  rw [signNat]
  omega

theorem expOf_eq (x : Packed) : expOf x = (magnitudeOf x).toNat - 16384 := by
  rw [magnitudeOf_toNat]

theorem signOf_pack (sign : Bool) (K : Int) : signOf (pack sign K) = sign :=
  signOf_pattern (le_saturate K) (saturate_le K) sign

theorem magnitudeOf_pack (sign : Bool) (K : Int) :
    (magnitudeOf (pack sign K)).toNat = (saturate K + 16384).toNat :=
  magnitudeOf_pattern (le_saturate K) (saturate_le K) sign

/-- The clamp keeps the magnitude field away from the sentinels' 0 (42_codec R62, R65). -/
theorem isFinite_pack (sign : Bool) (K : Int) : isFinite (pack sign K) := by
  have := le_saturate K
  rw [isFinite_iff, magnitudeOf_pack]
  omega

theorem expOf_pack (sign : Bool) (K : Int) : expOf (pack sign K) = saturate K := by
  have := le_saturate K
  rw [expOf_eq, magnitudeOf_pack]
  omega

theorem unpack_pack (sign : Bool) (K : Int) : unpack (pack sign K) = .finite sign (saturate K) := by
  rw [unpack_finite (isFinite_pack sign K), signOf_pack, ← expOf_eq, expOf_pack]

/-- Settles O38, from the fields of a packed pattern and the three cases of the clamp. -/
theorem packSaturates : Obligations.PackSaturates := by
  intro sign K
  rw [signNat_eq, signOf_pack, expOf_pack, unpack_pack]
  refine ⟨isFinite_pack sign K, rfl, fun above => ?_, fun below => ?_, fun low high => ?_⟩
  · rw [saturate_eq]
    omega
  · rw [saturate_eq]
    omega
  · rw [saturate_of_mem low high]

/-- Settles O39: half of an even number of half units is exact, and of an odd one the mode decides. -/
theorem encodeLogRoundsHalfUnits : Obligations.EncodeLogRoundsHalfUnits := by
  intro sign K
  have odd : (2 * K + 1) % 2 = 1 := by omega
  have below : (2 * K + 1 - 1) / 2 = K := by omega
  refine ⟨fun mode => ?_, ?_, fun even => ?_, fun odd' => ?_⟩
  · rw [encodeLog, roundHalf_even mode (Int.mul_emod_right 2 K),
      Int.mul_ediv_cancel_left K two_ne_zero]
  · rw [encodeLog, roundHalf_odd_lin odd, below]
  · rw [encodeLog, roundHalf_odd_log odd, below, if_pos even]
  · rw [encodeLog, roundHalf_odd_log odd, below, if_neg (by omega)]

end Sys2Proof.Proofs
end

section
/-! `Normalise` (42_codec R68): the significand is a quotient of powers of two, whichever way the bits of
the sum are shifted. -/

open Sys2Proof.Machine

namespace Sys2Proof.Proofs

/-- Both shifts of `Normalise` truncate the same quotient; the left one loses nothing (42_codec R68). -/
theorem significand_eq (S : Nat) : significand S = S * 2 ^ 32 / 2 ^ Nat.log2 S := by
  rw [significand]
  split
  next wide =>
    have factor : 2 ^ Nat.log2 S = 2 ^ (Nat.log2 S - 32) * 2 ^ 32 := by
      rw [← pow_add, Nat.sub_add_cancel wide]
    rw [Nat.shiftRight_eq_div_pow, factor, Nat.mul_div_mul_right _ _ (Nat.two_pow_pos 32)]
  next narrow =>
    have factor : 2 ^ 32 = 2 ^ (32 - Nat.log2 S) * 2 ^ Nat.log2 S := by
      rw [← pow_add, Nat.sub_add_cancel (not_le.mp narrow).le]
    rw [Nat.shiftLeft_eq, factor, ← mul_assoc, Nat.mul_div_cancel _ (Nat.two_pow_pos _)]

theorem two_pow_le_significand {S : Nat} (pos : 0 < S) : 2 ^ 32 ≤ significand S := by
  rw [significand_eq, Nat.le_div_iff_mul_le (Nat.two_pow_pos _), mul_comm]
  exact Nat.mul_le_mul_right _ (Nat.log2_self_le pos.ne')

theorem significand_lt (S : Nat) : significand S < 2 ^ 33 := by
  have msb : S < 2 ^ (Nat.log2 S + 1) := Nat.lt_log2_self
  rw [significand_eq, Nat.div_lt_iff_lt_mul (Nat.two_pow_pos _)]
  rw [pow_succ] at msb
  omega

/-- The dropped bits cannot be seen by a comparison with an integer (42_codec R68). -/
theorem le_significand_iff (T S : Nat) :
    T ≤ significand S ↔ (T : ℝ) ≤ (S : ℝ) * 2 ^ 32 / 2 ^ Nat.log2 S := by
  rw [significand_eq, Nat.le_div_iff_mul_le (Nat.two_pow_pos _), le_div_iff₀ (by positivity)]
  exact_mod_cast Iff.rfl

/-- Settles O40, from the significand as a quotient and the bounds of the leading bit. -/
theorem normaliseKeepsTheTop33Bits : Obligations.NormaliseKeepsTheTop33Bits := by
  rintro S pos p sig ⟨⟩
  have atLeast := two_pow_le_significand pos
  refine ⟨Nat.log2_self_le pos.ne', Nat.lt_log2_self, atLeast, significand_lt S, significand_eq S,
    fun T => ?_⟩
  rw [Nat.le_sub_iff_add_le atLeast, le_significand_iff, le_sub_iff_add_le, Nat.cast_add,
    Nat.cast_pow, Nat.cast_ofNat]

end Sys2Proof.Proofs
end

section
/-! `Linear` (42_codec R69): the octave and the grid index of an exponent split the power it stands for
into a power of two and a point of the octave, which the table holds to within half a unit. -/

open Sys2Proof.Machine

namespace Sys2Proof.Proofs

/-- Quotient and remainder of the exponent are the octave and the place in it. -/
theorem rpow_div_eq_octave_mul {F : Nat} (pos : 0 < F) (K : Int) :
    (2 : ℝ) ^ ((K : ℝ) / F) = 2 ^ (K / F) * 2 ^ (((K % F).toNat : ℝ) / F) := by
  have index : (((K % F).toNat : ℤ) : ℝ) = ((K % F : ℤ) : ℝ) := by
    rw [Int.toNat_of_nonneg (Int.emod_nonneg _ (by omega))]
  have division : (K : ℝ) = F * (K / F : ℤ) + (K % F : ℤ) := by
    exact_mod_cast (Int.mul_ediv_add_emod K F).symm
  have pos' : (F : ℝ) ≠ 0 := by positivity
  rw [← Real.rpow_intCast, ← Real.rpow_add two_pos, ← Int.cast_natCast (K % F).toNat, index, division]
  congr 1
  field_simp

/-- An octave is `2^32` units of its linear significand. -/
theorem two_zpow_eq_unit_mul (e : Int) : (2 : ℝ) ^ e = 2 ^ (e - 32) * 2 ^ 32 := by
  rw [← zpow_natCast, ← zpow_add₀ two_ne_zero]
  norm_num

/-- A 32-bit fraction within half a unit of a point of the octave, scaled to any octave `e`, is a linear
value within `2^-33` of the power relatively: the power is at least `2^e`. -/
theorem abs_linear_sub_le {E : Nat} {t : ℝ} (e : Int) (ht : 0 ≤ t)
    (near : |(E : ℝ) - octavePoint t| ≤ 1 / 2) :
    |((2 ^ 32 + E : ℕ) : ℝ) * 2 ^ (e - 32) - 2 ^ e * 2 ^ t| ≤ 2 ^ e * 2 ^ t / 2 ^ 33 := by
  have pos : (0 : ℝ) < 2 ^ (e - 32) := by positivity
  have start : 1 ≤ (2 : ℝ) ^ t := Real.one_le_rpow one_le_two ht
  have error : ((2 ^ 32 + E : ℕ) : ℝ) * 2 ^ (e - 32) - 2 ^ e * 2 ^ t =
      2 ^ (e - 32) * (E - octavePoint t) := by
    rw [two_zpow_eq_unit_mul e, octavePoint]
    push_cast
    ring
  calc |((2 ^ 32 + E : ℕ) : ℝ) * 2 ^ (e - 32) - 2 ^ e * 2 ^ t|
      = 2 ^ (e - 32) * |(E : ℝ) - octavePoint t| := by
        rw [error, abs_mul, abs_of_pos pos]
    _ ≤ 2 ^ (e - 32) * (1 / 2 * 2 ^ t) := by
        refine mul_le_mul_of_nonneg_left ?_ pos.le
        linarith
    _ = 2 ^ e * 2 ^ t / 2 ^ 33 := by
        rw [two_zpow_eq_unit_mul e]
        ring

variable {s : State}

theorem gridIndex_lt (s : State) (K : Int) : (K % gridOf s).toNat < gridOf s := by
  have pos := gridOf_pos s
  have := Int.emod_lt_of_pos K (b := gridOf s) (by omega)
  omega

/-- A state with the invariant reads its table as it stands (41_lut R55, 42_codec R69). -/
theorem linear_eq (hs : Inv s) (K : Int) :
    linear s.cfg s.lut K = (2 ^ 32 + tableE s (K % gridOf s).toNat, K / gridOf s - 32) := by
  have lookup : exp2Lookup s.lut (K % gridOf s).toNat = 2 ^ 32 + tableE s (K % gridOf s).toNat := by
    rw [tableE_eq_nearestEntry hs (gridIndex_lt s K), hs.2]
    exact exp2Lookup_rebuild _ (gridIndex_lt s K)
  exact Prod.ext lookup rfl

theorem tableE_lt (hs : Inv s) {i : Nat} (hi : i < gridOf s) : tableE s i < 2 ^ 32 := by
  rw [tableE_eq_nearestEntry hs hi]
  exact nearestEntry_lt _ _

theorem tableE_zero (hs : Inv s) : tableE s 0 = 0 := by
  obtain ⟨-, -, -, zero, -⟩ := exp2EntriesAreNearest s hs 0 (gridOf_pos s)
  exact zero

/-- The bias is a whole number of octaves, so that octave and grid index are two fields of the pattern
(10_state R14, 42_codec R69). -/
theorem octave_and_gridIndex_of_pattern {f : Nat} (hf : f ≤ 14) (x : Packed) :
    expOf x / (2 ^ f : ℕ) = (magNat x / 2 ^ f : ℕ) - 2 ^ (14 - f) ∧
      expOf x % (2 ^ f : ℕ) = (x.toNat % 2 ^ f : ℕ) := by
  have bias : (16384 : ℤ) = 2 ^ (14 - f) * (2 ^ f : ℕ) := by
    push_cast
    rw [← pow_add, Nat.sub_add_cancel hf]
    norm_num
  have field : 2 ^ f ∣ 2 ^ 15 := pow_dvd_pow 2 (by omega)
  constructor
  · rw [expOf, bias, Int.sub_mul_ediv_right _ _ (by positivity)]
    norm_cast
  · rw [expOf, bias, Int.sub_mul_emod_self_right, ← Nat.mod_mod_of_dvd x.toNat field]
    norm_cast

/-- Settles O41: the table's fraction is within half a unit of its point of the octave, and the first
point of an octave is exact. -/
theorem linearApproximatesThePower : Obligations.LinearApproximatesThePower := by
  intro s hs K _ _ N q value
  rw [linear_eq hs, Prod.mk.injEq] at value
  obtain ⟨rfl, rfl⟩ := value
  have small := tableE_lt hs (gridIndex_lt s K)
  obtain ⟨-, near, -⟩ := exp2EntriesAreNearest s hs _ (gridIndex_lt s K)
  refine ⟨rfl, rfl, by omega, by omega, ?_, fun first => ?_, ?_⟩
  · rw [rpow_div_eq_octave_mul (gridOf_pos s)]
    exact abs_linear_sub_le _ (by positivity) near
  · rw [rpow_div_eq_octave_mul (gridOf_pos s), first, Int.toNat_zero, tableE_zero hs,
      two_zpow_eq_unit_mul (K / gridOf s)]
    norm_num [mul_comm]
  · rintro x rfl
    exact octave_and_gridIndex_of_pattern (hs.1.2.trans (by norm_num)) x

end Sys2Proof.Proofs
end

section
/-! The multiplicative commands on unpacked operands (43_multiplicative R70 to R75): each answers a
sentinel by a table of tags, and for Finite operands packs a sign and an exponent. -/

open Sys2Proof.Machine

namespace Sys2Proof.Proofs

theorem unpack_of_isFinite {x : Packed} (h : isFinite x) :
    unpack x = .finite (signOf x) (expOf x) := by
  rw [unpack_finite h, ← expOf_eq]

theorem eq_zero_or_eq_nar_or_isFinite (x : Packed) : x = 0x0000 ∨ x = 0x8000 ∨ isFinite x := by
  obtain ⟨h, -⟩ | ⟨h, -⟩ | ⟨h, -⟩ := unpack_cases x
  · exact .inl h
  · exact .inr (.inl h)
  · exact .inr (.inr h)

/-- The range of exponents is symmetric (42_codec R62). -/
theorem expOf_mem_of_isFinite {x : Packed} (h : isFinite x) :
    -16383 ≤ expOf x ∧ expOf x ≤ 16383 := by
  have pos := (isFinite_iff x).mp h
  have le := magnitudeOf_lt x
  rw [expOf_eq]
  omega

theorem packed_ext {x y : Packed} (sign : signOf x = signOf y) (exponent : expOf x = expOf y) :
    x = y := by
  rw [expOf_eq, expOf_eq] at exponent
  apply BitVec.eq_of_toNat_eq
  rw [packed_toNat x, packed_toNat y, sign]
  omega

/-- Packing the fields of a Finite pattern gives it back. -/
theorem pack_signOf_expOf {x : Packed} (h : isFinite x) : pack (signOf x) (expOf x) = x := by
  obtain ⟨low, high⟩ := expOf_mem_of_isFinite h
  exact packed_ext (signOf_pack ..) (by rw [expOf_pack, saturate_of_mem low high])

section
variable {a b : Packed}

theorem mulPacked_comm (a b : Packed) : mulPacked a b = mulPacked b a := by
  rw [mulPacked, mulPacked]
  cases unpack a with
  | nar => cases unpack b <;> rfl
  | zero => cases unpack b <;> rfl
  | finite sa Ka =>
    cases unpack b with
    | finite sb Kb => exact congrArg₂ pack (Bool.xor_comm sa sb) (add_comm Ka Kb)
    | _ => rfl

theorem mulPacked_nar_left (b : Packed) : mulPacked 0x8000 b = 0x8000 := by
  rw [mulPacked, unpack_nar]
  cases unpack b <;> rfl

theorem mulPacked_zero_left (notNaR : b ≠ 0x8000) : mulPacked 0x0000 b = 0x0000 := by
  obtain rfl | isNaR | fin := eq_zero_or_eq_nar_or_isFinite b
  · rfl
  · contradiction
  · rw [mulPacked, unpack_zero, unpack_of_isFinite fin]
    rfl

theorem mulPacked_of_isFinite (ha : isFinite a) (hb : isFinite b) :
    mulPacked a b = pack (signOf a ^^ signOf b) (expOf a + expOf b) := by
  rw [mulPacked, unpack_of_isFinite ha, unpack_of_isFinite hb]

theorem divPacked_nar_left (b : Packed) : divPacked 0x8000 b = 0x8000 := by
  rw [divPacked, unpack_nar]
  cases unpack b <;> rfl

theorem divPacked_nar_right (a : Packed) : divPacked a 0x8000 = 0x8000 := by
  rw [divPacked, unpack_nar]
  cases unpack a <;> rfl

theorem divPacked_zero_right (a : Packed) : divPacked a 0x0000 = 0x8000 := by
  rw [divPacked, unpack_zero]
  cases unpack a <;> rfl

theorem divPacked_zero_left (hb : isFinite b) : divPacked 0x0000 b = 0x0000 := by
  rw [divPacked, unpack_zero, unpack_of_isFinite hb]
  rfl

theorem divPacked_of_isFinite (ha : isFinite a) (hb : isFinite b) :
    divPacked a b = pack (signOf a ^^ signOf b) (expOf a - expOf b) := by
  rw [divPacked, unpack_of_isFinite ha, unpack_of_isFinite hb]

theorem divPacked_self (ha : isFinite a) : divPacked a a = 0x4000 := by
  rw [divPacked_of_isFinite ha ha, Bool.xor_self, Int.sub_self]
  rfl

theorem sqrPacked_of_isFinite (ha : isFinite a) : sqrPacked a = pack false (2 * expOf a) := by
  rw [sqrPacked, unpack_of_isFinite ha]

/-- SQR is MUL of an operand with itself, for the sentinels too (43_multiplicative R72 (d)). -/
theorem sqrPacked_eq_mulPacked (a : Packed) : sqrPacked a = mulPacked a a := by
  obtain rfl | rfl | fin := eq_zero_or_eq_nar_or_isFinite a
  · rfl
  · rfl
  · rw [sqrPacked_of_isFinite fin, mulPacked_of_isFinite fin fin, Bool.xor_self, two_mul]

theorem sqrtPacked_nar (mode : Config.RMode) : sqrtPacked mode 0x8000 = some 0x8000 := rfl

theorem sqrtPacked_zero (mode : Config.RMode) : sqrtPacked mode 0x0000 = some 0x0000 := rfl

theorem sqrtPacked_of_negative {mode : Config.RMode} (ha : isFinite a)
    (negative : signOf a = true) : sqrtPacked mode a = none := by
  rw [sqrtPacked, unpack_of_isFinite ha, negative]

theorem sqrtPacked_of_positive {mode : Config.RMode} (ha : isFinite a)
    (positive : signOf a = false) :
    sqrtPacked mode a = some (pack false (roundHalf mode (expOf a))) := by
  rw [sqrtPacked, unpack_of_isFinite ha, positive]
  rfl

/-- The rounding of half grid units takes the one neighbour that the mode names (42_codec R66). -/
theorem roundHalf_eq_of {mode : Config.RMode} {K2 L : Int}
    (h : 2 * L = K2 ∨ (2 * L = K2 - 1 ∧ mode = .lin) ∨
      ((2 * L = K2 - 1 ∨ 2 * L = K2 + 1) ∧ L % 2 = 0 ∧ mode = .log)) : roundHalf mode K2 = L := by
  obtain even | ⟨below, rfl⟩ | ⟨neighbour, even, rfl⟩ := h
  · rw [roundHalf_even mode (by omega)]
    omega
  · rw [roundHalf_odd_lin (by omega)]
    omega
  · rw [roundHalf_odd_log (by omega)]
    split <;> omega

theorem invPacked_of_isFinite (ha : isFinite a) : invPacked a = pack (signOf a) (-expOf a) := by
  rw [invPacked, unpack_of_isFinite ha]

/-- The negated exponent is in range too, so INV never saturates (43_multiplicative R74 (a)). -/
theorem expOf_invPacked (ha : isFinite a) : expOf (invPacked a) = -expOf a := by
  obtain ⟨low, high⟩ := expOf_mem_of_isFinite ha
  rw [invPacked_of_isFinite ha, expOf_pack, saturate_of_mem (by omega) (by omega)]

theorem signOf_invPacked (ha : isFinite a) : signOf (invPacked a) = signOf a := by
  rw [invPacked_of_isFinite ha, signOf_pack]

theorem isFinite_invPacked (ha : isFinite a) : isFinite (invPacked a) := by
  rw [invPacked_of_isFinite ha]
  exact isFinite_pack ..

theorem invPacked_invPacked (ha : isFinite a) : invPacked (invPacked a) = a := by
  rw [invPacked_of_isFinite (isFinite_invPacked ha), expOf_invPacked ha, signOf_invPacked ha,
    Int.neg_neg, pack_signOf_expOf ha]

/-- INV is DIV of 1, for the sentinels too (43_multiplicative R74 (e)). -/
theorem invPacked_eq_divPacked (a : Packed) : invPacked a = divPacked 0x4000 a := by
  obtain rfl | rfl | fin := eq_zero_or_eq_nar_or_isFinite a
  · rfl
  · rfl
  · have one : isFinite 0x4000 := by decide
    have sign : signOf 0x4000 = false := by decide
    have exponent : expOf 0x4000 = 0 := by decide
    rw [invPacked_of_isFinite fin, divPacked_of_isFinite one fin, sign, exponent, Bool.false_xor,
      Int.zero_sub]

theorem negPacked_of_sentinel (h : a = 0x0000 ∨ a = 0x8000) : negPacked a = a := if_pos h

/-- Flipping bit 15 of a Finite pattern changes its sign and keeps its exponent (43_multiplicative
R75). -/
theorem negPacked_of_isFinite (ha : isFinite a) : negPacked a = pack (!signOf a) (expOf a) := by
  have notSentinel : ¬ (a = patternZero ∨ a = patternNaR) := not_or.mpr ha
  have sign : signOf (a ^^^ 0x8000) = !signOf a := by
    rw [signOf, BitVec.getLsbD_xor]
    exact Bool.xor_true _
  have magnitude : magnitudeOf (a ^^^ 0x8000) = magnitudeOf a := by
    rw [magnitudeOf, BitVec.extractLsb'_xor]
    exact BitVec.xor_zero
  obtain ⟨low, high⟩ := expOf_mem_of_isFinite ha
  rw [negPacked, if_neg notSentinel]
  apply packed_ext
  · rw [sign, signOf_pack]
  · rw [expOf_pack, saturate_of_mem low high, expOf_eq, magnitude, expOf_eq]

theorem signOf_negPacked (ha : isFinite a) : signOf (negPacked a) = !signOf a := by
  rw [negPacked_of_isFinite ha, signOf_pack]

theorem expOf_negPacked (ha : isFinite a) : expOf (negPacked a) = expOf a := by
  obtain ⟨low, high⟩ := expOf_mem_of_isFinite ha
  rw [negPacked_of_isFinite ha, expOf_pack, saturate_of_mem low high]

theorem negPacked_negPacked (ha : isFinite a) : negPacked (negPacked a) = a := by
  have fin : isFinite (negPacked a) := by
    rw [negPacked_of_isFinite ha]
    exact isFinite_pack ..
  rw [negPacked_of_isFinite fin, signOf_negPacked ha, expOf_negPacked ha, Bool.not_not,
    pack_signOf_expOf ha]

end

end Sys2Proof.Proofs
end

section
/-! What the multiplicative commands answer (43_multiplicative R70 to R75), as the word in R. -/

open Sys2Proof Sys2Proof.Machine

namespace Sys2Proof.Proofs

/-- Responding with a packed result answers with that pattern in R (30_encoding R37). -/
theorem next_respond_packedResult (s : State) {x r : Packed} (h : x = r) :
    (.next (respond (packedResult x) s) : Host.Outcome State Fault Refusal) =
      .next (answered s (inR r)) := by
  rw [respond_eq_answer, answer_eq, h, inR, packedResult, BitVec.ofNat_toNat]

theorem pack_toNat (sign : Bool) (K : Int) :
    (pack sign K).toNat = sign.toNat * 2 ^ 15 + (saturate K + 16384).toNat := by
  rw [packed_toNat, signOf_pack, magnitudeOf_pack]

theorem inR_pack (sign : Bool) (K : Int) :
    inR (pack sign K) = clampedWord sign.toNat (K + 16384) := by
  have clamp : (saturate K + 16384).toNat = (max 1 (min 32767 (K + 16384))).toNat := by
    rw [saturate_eq]
    omega
  rw [inR, pack_toNat, clamp]

theorem toNat_signOf_xor (a b : Packed) :
    (signOf a ^^ signOf b).toNat = (signNat a + signNat b) % 2 := by
  rw [signNat_eq, signNat_eq]
  cases signOf a <;> cases signOf b <;> rfl

variable (s : State) {a b r : Packed}

theorem exec_mul_of_eq (h : mulPacked a b = r) : exec (.mul a b) s = .next (answered s (inR r)) :=
  (exec_mul s a b).trans (next_respond_packedResult s h)

theorem exec_div_of_eq (h : divPacked a b = r) : exec (.div a b) s = .next (answered s (inR r)) :=
  (exec_div s a b).trans (next_respond_packedResult s h)

theorem exec_sqr_of_eq (h : sqrPacked a = r) : exec (.sqr a) s = .next (answered s (inR r)) :=
  (exec_sqr s a).trans (next_respond_packedResult s h)

theorem exec_inv_of_eq (h : invPacked a = r) : exec (.inv a) s = .next (answered s (inR r)) :=
  (exec_inv s a).trans (next_respond_packedResult s h)

theorem exec_neg_of_eq (h : negPacked a = r) : exec (.neg a) s = .next (answered s (inR r)) :=
  (exec_neg s a).trans (next_respond_packedResult s h)

theorem exec_sqrt_of_eq (h : sqrtPacked s.cfg.rmode a = some r) :
    exec (.sqrt a) s = .next (answered s (inR r)) :=
  (exec_sqrt_of_root s h).trans (next_respond_packedResult s rfl)

end Sys2Proof.Proofs
end

section
/-! The rules of the six commands (43_multiplicative R70 to R75), each from its word, its sentinels
and its Finite case. -/

open Sys2Proof Sys2Proof.Machine

namespace Sys2Proof.Proofs

/-- Settles O23: NaR before Zero on the left, and on the right by commutativity. -/
theorem mulAddsExponents : Obligations.MulAddsExponents := by
  intro s a b
  refine ⟨wordB16_eq_wordOf .., ?_, ?_, fun ha hb => ?_, ?_⟩
  · rintro (rfl | rfl)
    · exact exec_mul_of_eq s (mulPacked_nar_left b)
    · exact exec_mul_of_eq s ((mulPacked_comm ..).trans (mulPacked_nar_left a))
  · rintro ha hb (rfl | rfl)
    · exact exec_mul_of_eq s (mulPacked_zero_left hb)
    · exact exec_mul_of_eq s ((mulPacked_comm ..).trans (mulPacked_zero_left ha))
  · rw [exec_mul_of_eq s (mulPacked_of_isFinite ha hb), inR_pack, toNat_signOf_xor]
  · rw [exec_mul, exec_mul, mulPacked_comm]

/-- Settles O24: the sentinels, the packed difference, and the difference 0 of equal exponents. -/
theorem divSubtractsExponents : Obligations.DivSubtractsExponents := by
  intro s a b
  refine ⟨wordB16_eq_wordOf .., ?_, ?_, fun ha hb => ?_,
    fun ha => exec_div_of_eq s (divPacked_self ha)⟩
  · rintro (rfl | rfl | rfl)
    · exact exec_div_of_eq s (divPacked_nar_left b)
    · exact exec_div_of_eq s (divPacked_nar_right a)
    · exact exec_div_of_eq s (divPacked_zero_right a)
  · rintro rfl hb
    exact exec_div_of_eq s (divPacked_zero_left hb)
  · rw [exec_div_of_eq s (divPacked_of_isFinite ha hb), inR_pack, toNat_signOf_xor]

/-- Settles O25: the sentinels, the packed double, and SQR as MUL. -/
theorem sqrDoublesTheExponent : Obligations.SqrDoublesTheExponent := by
  intro s a
  refine ⟨wordU16_eq_wordOf .., ?_, ?_, fun ha => ?_, ?_⟩
  · rintro rfl
    exact exec_sqr_of_eq s rfl
  · rintro rfl
    exact exec_sqr_of_eq s rfl
  · rw [exec_sqr_of_eq s (sqrPacked_of_isFinite ha), inR_pack, Bool.toNat_false]
  · rw [exec_sqr, exec_mul, sqrPacked_eq_mulPacked]

/-- Settles O26: the sentinels, the fault of a negative operand, and the half that the mode names,
which is far from the clamp. -/
theorem sqrtHalvesTheExponent : Obligations.SqrtHalvesTheExponent := by
  intro s a
  refine ⟨wordU16_eq_wordOf .., ?_, ?_, fun ha sign => ?_, fun ha sign L half => ?_⟩
  · rintro rfl
    exact exec_sqrt_of_eq s (sqrtPacked_nar _)
  · rintro rfl
    exact exec_sqrt_of_eq s (sqrtPacked_zero _)
  · rw [signNat_eq, Bool.toNat_eq_one] at sign
    exact exec_sqrt_of_negative s (sqrtPacked_of_negative ha sign)
  · rw [signNat_eq, Bool.toNat_eq_zero] at sign
    obtain ⟨low, high⟩ := expOf_mem_of_isFinite ha
    have lower : -8192 ≤ L := by omega
    have upper : L ≤ 8192 := by omega
    refine ⟨lower, upper, ?_⟩
    rw [exec_sqrt_of_eq s (sqrtPacked_of_positive ha sign), roundHalf_eq_of half, inR, pack_toNat,
      saturate_of_mem (by omega) (by omega), Bool.toNat_false, Nat.zero_mul, Nat.zero_add]

/-- Settles O27: the fields of the reciprocal, INV undoing itself, and INV as DIV. -/
theorem invNegatesTheExponent : Obligations.InvNegatesTheExponent := by
  intro s a
  refine ⟨wordU16_eq_wordOf .., ?_, fun ha => ?_, ?_⟩
  · rintro (rfl | rfl)
    · exact exec_inv_of_eq s rfl
    · exact exec_inv_of_eq s rfl
  · have sign : signNat (invPacked a) = signNat a := by
      rw [signNat_eq, signNat_eq, signOf_invPacked ha]
    have exponent := expOf_invPacked ha
    have magnitude : magNat (invPacked a) = 32768 - magNat a := by
      rw [expOf, expOf] at exponent
      omega
    exact ⟨invPacked a, isFinite_invPacked ha, sign, exponent, magnitude, exec_inv_of_eq s rfl,
      exec_inv_of_eq s (invPacked_invPacked ha)⟩
  · rw [exec_inv, exec_div, invPacked_eq_divPacked]

/-- Settles O28: the sentinels, the fields of the negation, and NEG undoing itself. -/
theorem negFlipsTheSign : Obligations.NegFlipsTheSign := by
  intro s a
  refine ⟨wordU16_eq_wordOf .., fun h => exec_neg_of_eq s (negPacked_of_sentinel h), fun ha => ?_⟩
  have sign : signNat (negPacked a) = 1 - signNat a := by
    rw [signNat_eq, signNat_eq, signOf_negPacked ha]
    cases signOf a <;> rfl
  have magnitude : magNat (negPacked a) = magNat a := by
    have exponent := expOf_negPacked ha
    rw [expOf, expOf] at exponent
    omega
  exact ⟨negPacked a, sign, magnitude, exec_neg_of_eq s rfl,
    exec_neg_of_eq s (negPacked_negPacked ha)⟩

end Sys2Proof.Proofs
end

section
/-! The real numbers behind the exponents (43_multiplicative R77): a sign and a number of grid units
stand for a real number, and sums of exponents for products. -/

open Sys2Proof Sys2Proof.Machine

namespace Sys2Proof.Proofs

/-- The real factor of a sign bit. -/
noncomputable def signFactor (sign : Bool) : ℝ := if sign then -1 else 1

/-- The real number `(-1)^s * 2^(K/2^f)` of a sign and an exponent (10_state R14), for every
exponent, also one out of range. -/
noncomputable def gridValue (f : Nat) (sign : Bool) (K : Int) : ℝ :=
  signFactor sign * 2 ^ ((K : ℝ) / 2 ^ f)

theorem signFactor_xor (s t : Bool) : signFactor (s ^^ t) = signFactor s * signFactor t := by
  cases s <;> cases t <;> simp [signFactor]

theorem signFactor_not (s : Bool) : signFactor (!s) = -signFactor s := by
  cases s <;> simp [signFactor]

variable {f : Nat}

theorem gridValue_zero : gridValue f false 0 = 1 := by
  simp [gridValue, signFactor]

theorem gridValue_nonneg (K : Int) : 0 ≤ gridValue f false K := by
  simp only [gridValue, signFactor, Bool.false_eq_true, if_false, one_mul]
  positivity

theorem gridValue_add (s t : Bool) (K L : Int) :
    gridValue f (s ^^ t) (K + L) = gridValue f s K * gridValue f t L := by
  rw [gridValue, signFactor_xor, Int.cast_add, add_div, Real.rpow_add two_pos]
  exact mul_mul_mul_comm ..

theorem gridValue_two_mul (s : Bool) (K : Int) :
    gridValue f false (2 * K) = gridValue f s K ^ 2 := by
  rw [sq, ← gridValue_add, Bool.xor_self, two_mul]

theorem gridValue_neg (s : Bool) (K : Int) : gridValue f s (-K) = (gridValue f s K)⁻¹ := by
  have unit : gridValue f s (-K) * gridValue f s K = 1 := by
    rw [← gridValue_add, Bool.xor_self, Int.add_left_neg, gridValue_zero]
  exact eq_inv_of_mul_eq_one_left unit

theorem gridValue_sub (s t : Bool) (K L : Int) :
    gridValue f (s ^^ t) (K - L) = gridValue f s K / gridValue f t L := by
  rw [Int.sub_eq_add_neg, gridValue_add, gridValue_neg, div_eq_mul_inv]

theorem gridValue_not (s : Bool) (K : Int) : gridValue f (!s) K = -gridValue f s K := by
  rw [gridValue, signFactor_not, neg_mul, gridValue]

variable {a b : Packed}

/-- A Finite pattern stands for the real number of its two fields (10_state R14). -/
theorem realValue_of_isFinite (ha : isFinite a) :
    realValue f a = gridValue f (signOf a) (expOf a) := by
  rw [realValue, if_neg ha.1, gridValue, signFactor, signOf_eq]
  by_cases negative : 2 ^ 15 ≤ a.toNat
  · rw [if_neg (not_lt.mpr negative), if_pos (decide_eq_true negative)]
  · rw [if_pos (not_le.mp negative), if_neg (mt of_decide_eq_true negative)]

/-- `Pack` is exact on exponents in range (42_codec R65). -/
theorem realValue_pack {sign : Bool} {K : Int} (low : -16383 ≤ K) (high : K ≤ 16383) :
    realValue f (pack sign K) = gridValue f sign K := by
  rw [realValue_of_isFinite (isFinite_pack sign K), signOf_pack, expOf_pack,
    saturate_of_mem low high]

theorem realValue_mulPacked (ha : isFinite a) (hb : isFinite b) (low : -16383 ≤ expOf a + expOf b)
    (high : expOf a + expOf b ≤ 16383) :
    realValue f (mulPacked a b) = realValue f a * realValue f b := by
  rw [mulPacked_of_isFinite ha hb, realValue_pack low high, gridValue_add, realValue_of_isFinite ha,
    realValue_of_isFinite hb]

theorem realValue_divPacked (ha : isFinite a) (hb : isFinite b) (low : -16383 ≤ expOf a - expOf b)
    (high : expOf a - expOf b ≤ 16383) :
    realValue f (divPacked a b) = realValue f a / realValue f b := by
  rw [divPacked_of_isFinite ha hb, realValue_pack low high, gridValue_sub, realValue_of_isFinite ha,
    realValue_of_isFinite hb]

theorem realValue_sqrPacked (ha : isFinite a) (low : -16383 ≤ 2 * expOf a)
    (high : 2 * expOf a ≤ 16383) : realValue f (sqrPacked a) = realValue f a ^ 2 := by
  rw [sqrPacked_of_isFinite ha, realValue_pack low high, gridValue_two_mul,
    realValue_of_isFinite ha]

theorem realValue_invPacked (ha : isFinite a) : realValue f (invPacked a) = (realValue f a)⁻¹ := by
  rw [realValue_of_isFinite (isFinite_invPacked ha), signOf_invPacked ha, expOf_invPacked ha,
    gridValue_neg, realValue_of_isFinite ha]

theorem realValue_negPacked (ha : isFinite a) : realValue f (negPacked a) = -realValue f a := by
  obtain ⟨low, high⟩ := expOf_mem_of_isFinite ha
  rw [negPacked_of_isFinite ha, realValue_pack low high, gridValue_not, realValue_of_isFinite ha]

/-- The root of a positive pattern with an even exponent is the pattern of half the exponent, which
squares back to it (43_multiplicative R73 (a)). -/
theorem exists_sqrt_of_even {mode : Config.RMode} (ha : isFinite a) (positive : signOf a = false)
    (even : expOf a % 2 = 0) :
    ∃ r, sqrtPacked mode a = some r ∧ realValue f r = Real.sqrt (realValue f a) := by
  obtain ⟨low, high⟩ := expOf_mem_of_isFinite ha
  have double : 2 * (expOf a / 2) = expOf a := by omega
  refine ⟨_, sqrtPacked_of_positive ha positive, ?_⟩
  rw [roundHalf_even mode even, realValue_pack (by omega) (by omega),
    realValue_of_isFinite ha, positive]
  conv_rhs => rw [← double, gridValue_two_mul false, Real.sqrt_sq (gridValue_nonneg _)]

end Sys2Proof.Proofs
end

section
/-! Exactness on the real numbers (43_multiplicative R77). -/

open Sys2Proof Sys2Proof.Machine

namespace Sys2Proof.Proofs

/-- Settles O30: each command's answer, with the real number of its pattern. -/
theorem multiplicativeIsExactOnReals : Obligations.MultiplicativeIsExactOnReals := by
  intro s a b ha hb V
  refine ⟨fun low high => ⟨_, exec_mul_of_eq s rfl, realValue_mulPacked ha hb low high⟩,
    fun low high => ⟨_, exec_div_of_eq s rfl, realValue_divPacked ha hb low high⟩,
    fun low high => ⟨_, exec_sqr_of_eq s rfl, realValue_sqrPacked ha low high⟩,
    ⟨_, exec_inv_of_eq s rfl, realValue_invPacked ha⟩,
    ⟨_, exec_neg_of_eq s rfl, realValue_negPacked ha⟩, fun sign even => ?_⟩
  rw [signNat_eq, Bool.toNat_eq_zero] at sign
  obtain ⟨r, root, value⟩ := exists_sqrt_of_even ha sign even
  exact ⟨r, exec_sqrt_of_eq s root, value⟩

end Sys2Proof.Proofs
end

section
/-! ADD and SUB on unpacked operands (44_additive R80, R81), in any state: the sentinels bypass the
datapath, and the datapath on two Finite operands reads the order of their exponents and whether their
signs agree. -/

open Sys2Proof.Machine

namespace Sys2Proof.Proofs

variable (c : Cfg) (t : Lut) {a b g h : Packed}

theorem addPacked_nar_left (b : Packed) : addPacked c t 0x8000 b = 0x8000 := by
  rw [addPacked, unpack_nar]
  cases unpack b <;> rfl

theorem addPacked_nar_right (a : Packed) : addPacked c t a 0x8000 = 0x8000 := by
  rw [addPacked, unpack_nar]
  cases unpack a <;> rfl

/-- Zero is an identity for every operand, NaR among them (44_additive R80 (a), (b)). -/
theorem addPacked_zero_left (b : Packed) : addPacked c t 0x0000 b = b := by
  obtain rfl | rfl | fin := eq_zero_or_eq_nar_or_isFinite b
  · rfl
  · rfl
  · rw [addPacked, unpack_zero, unpack_of_isFinite fin]

theorem addPacked_zero_right (a : Packed) : addPacked c t a 0x0000 = a := by
  obtain rfl | rfl | fin := eq_zero_or_eq_nar_or_isFinite a
  · rfl
  · rfl
  · rw [addPacked, unpack_zero, unpack_of_isFinite fin]

theorem addPacked_of_isFinite (ha : isFinite a) (hb : isFinite b) :
    addPacked c t a b =
      if expOf a ≥ expOf b then addOrdered c t (signOf a) (expOf a) (signOf b) (expOf b)
      else addOrdered c t (signOf b) (expOf b) (signOf a) (expOf a) := by
  rw [addPacked, unpack_of_isFinite ha, unpack_of_isFinite hb]

/-- On equal exponents the choice of g is never seen: the sums agree, and the differences are both 0
(44_additive R82 (a)). -/
theorem addOrdered_swap (sa sb : Bool) (K : Int) :
    addOrdered c t sa K sb K = addOrdered c t sb K sa K := by
  obtain rfl | differ := eq_or_ne sa sb
  · rfl
  · have cancels : ∀ {u v : Bool}, u ≠ v → alignedSum c t u K v K = 0 := by
      intro u v huv
      simp [alignedSum, huv]
    simp [addOrdered, cancels differ, cancels differ.symm]

theorem addPacked_of_expOf_le (hg : isFinite g) (hh : isFinite h) (order : expOf h ≤ expOf g) :
    addPacked c t g h = addOrdered c t (signOf g) (expOf g) (signOf h) (expOf h) := by
  rw [addPacked_of_isFinite c t hg hh, if_pos order]

theorem addPacked_swap_of_expOf_le (hg : isFinite g) (hh : isFinite h)
    (order : expOf h ≤ expOf g) :
    addPacked c t h g = addOrdered c t (signOf g) (expOf g) (signOf h) (expOf h) := by
  rw [addPacked_of_isFinite c t hh hg]
  split
  next order' => rw [le_antisymm order order', addOrdered_swap]
  next => rfl

theorem addPacked_comm (a b : Packed) : addPacked c t a b = addPacked c t b a := by
  obtain rfl | rfl | ha := eq_zero_or_eq_nar_or_isFinite a
  · rw [addPacked_zero_left, addPacked_zero_right]
  · rw [addPacked_nar_left, addPacked_nar_right]
  obtain rfl | rfl | hb := eq_zero_or_eq_nar_or_isFinite b
  · rw [addPacked_zero_left, addPacked_zero_right]
  · rw [addPacked_nar_left, addPacked_nar_right]
  obtain order | order := le_total (expOf b) (expOf a)
  · rw [addPacked_of_expOf_le c t ha hb order, addPacked_swap_of_expOf_le c t ha hb order]
  · rw [addPacked_of_expOf_le c t hb ha order, addPacked_swap_of_expOf_le c t hb ha order]

theorem isFinite_negPacked (ha : isFinite a) : isFinite (negPacked a) := by
  rw [negPacked_of_isFinite ha]
  exact isFinite_pack ..

/-- NEG undoes itself on the sentinels too (43_multiplicative R75). -/
theorem negPacked_involutive (a : Packed) : negPacked (negPacked a) = a := by
  obtain rfl | rfl | ha := eq_zero_or_eq_nar_or_isFinite a
  · rfl
  · rfl
  · exact negPacked_negPacked ha

theorem negPacked_pack (sign : Bool) (K : Int) : negPacked (pack sign K) = pack (!sign) K := by
  have fin := isFinite_pack sign K
  apply packed_ext
  · rw [signOf_negPacked fin, signOf_pack, signOf_pack]
  · rw [expOf_negPacked fin, expOf_pack, expOf_pack]

/-- Only the sign of g enters the result's sign, and S depends on whether the signs agree (44_additive
R82 (d)). -/
theorem addOrdered_not (sg ss : Bool) (Kg Ks : Int) :
    addOrdered c t (!sg) Kg (!ss) Ks = negPacked (addOrdered c t sg Kg ss Ks) := by
  have sum : alignedSum c t (!sg) Kg (!ss) Ks = alignedSum c t sg Kg ss Ks := by
    simp only [alignedSum, Bool.not_inj_iff]
  rw [addOrdered, addOrdered, sum]
  split
  · rfl
  · exact (negPacked_pack ..).symm

theorem addPacked_negPacked (a b : Packed) :
    addPacked c t (negPacked a) (negPacked b) = negPacked (addPacked c t a b) := by
  obtain rfl | rfl | ha := eq_zero_or_eq_nar_or_isFinite a
  · rw [negPacked_of_sentinel (.inl rfl), addPacked_zero_left, addPacked_zero_left]
  · rw [negPacked_of_sentinel (.inr rfl), addPacked_nar_left, addPacked_nar_left,
      negPacked_of_sentinel (.inr rfl)]
  obtain rfl | rfl | hb := eq_zero_or_eq_nar_or_isFinite b
  · rw [negPacked_of_sentinel (.inl rfl), addPacked_zero_right, addPacked_zero_right]
  · rw [negPacked_of_sentinel (.inr rfl), addPacked_nar_right, addPacked_nar_right,
      negPacked_of_sentinel (.inr rfl)]
  rw [addPacked_of_isFinite c t (isFinite_negPacked ha) (isFinite_negPacked hb),
    addPacked_of_isFinite c t ha hb, signOf_negPacked ha, signOf_negPacked hb, expOf_negPacked ha,
    expOf_negPacked hb, addOrdered_not, addOrdered_not, apply_ite negPacked]

/-- Exchanging minuend and subtrahend negates the difference (44_additive R81 (d)). -/
theorem subPacked_swap (a b : Packed) : subPacked c t b a = negPacked (subPacked c t a b) := by
  calc subPacked c t b a = addPacked c t (negPacked a) b := addPacked_comm ..
    _ = addPacked c t (negPacked a) (negPacked (negPacked b)) := by rw [negPacked_involutive]
    _ = negPacked (subPacked c t a b) := addPacked_negPacked ..

end Sys2Proof.Proofs
end

section
/-! What ADD and SUB answer in any state (44_additive R81, R82 (a) to (d)), as the word in R. -/

open Sys2Proof Sys2Proof.Machine

namespace Sys2Proof.Proofs

/-- Adding `2^15` flips bit 15: a carry leaves the word (43_multiplicative R75). -/
theorem flipped_eq_negPacked (x : Packed) : flipped x = negPacked x := by
  by_cases sentinel : x = 0x0000 ∨ x = 0x8000
  · rw [flipped, if_pos sentinel, negPacked_of_sentinel sentinel]
  · have fin : isFinite x := not_or.mp sentinel
    obtain ⟨low, high⟩ := expOf_mem_of_isFinite fin
    have magnitude : (expOf x + 16384).toNat = x.toNat % 2 ^ 15 := by
      rw [expOf, Int.sub_add_cancel, Int.toNat_natCast]
    apply BitVec.eq_of_toNat_eq
    rw [flipped, if_neg sentinel, negPacked_of_isFinite fin, pack_toNat, saturate_of_mem low high,
      magnitude, BitVec.toNat_ofNat, signOf_eq]
    by_cases negative : 2 ^ 15 ≤ x.toNat
    · rw [decide_eq_true negative, Bool.not_true, Bool.toNat_false]
      omega
    · rw [decide_eq_false negative, Bool.not_false, Bool.toNat_true]
      omega

variable (s : State) {a b r : Packed}

theorem exec_add_of_eq (h : addPacked s.cfg s.lut a b = r) :
    exec (.add a b) s = .next (answered s (inR r)) :=
  (exec_add s a b).trans (next_respond_packedResult s h)

theorem exec_sub_of_eq (h : subPacked s.cfg s.lut a b = r) :
    exec (.sub a b) s = .next (answered s (inR r)) :=
  (exec_sub s a b).trans (next_respond_packedResult s h)

/-- Settles O44: SUB's answer is by definition ADD's for the negated subtrahend. -/
theorem subIsAddOfTheNegation : Obligations.SubIsAddOfTheNegation := by
  intro s a b
  refine ⟨wordB16_eq_wordOf .., _, exec_sub_of_eq s rfl, ?_⟩
  rw [flipped_eq_negPacked]
  exact exec_add_of_eq s rfl

/-- Settles O45, from the same laws of the patterns. -/
theorem addIsCommutativeAndSignSymmetric : Obligations.AddIsCommutativeAndSignSymmetric := by
  intro s a b
  simp only [flipped_eq_negPacked]
  refine ⟨?_, exec_add_of_eq s (addPacked_zero_right ..), exec_add_of_eq s (addPacked_nar_right ..),
    _, exec_add_of_eq s rfl, exec_add_of_eq s (addPacked_negPacked ..),
    _, exec_sub_of_eq s rfl, exec_sub_of_eq s (subPacked_swap ..)⟩
  rw [exec_add, exec_add, addPacked_comm]

end Sys2Proof.Proofs
end

section
/-! The datapath of ADD in a state with the invariant (44_additive R80): the aligned sum of two
significands in the entries of the table, and the pattern its leading bit and its top 33 bits give. -/

open Sys2Proof.Machine

namespace Sys2Proof.Proofs

/-- The 33-bit significand `Exp2Lookup(K mod F)` of an exponent (41_lut R55, 44_additive R80), from the
entries of the table. -/
def gridSignificand (s : State) (K : Int) : Nat := 2 ^ 32 + tableE s (K % gridOf s).toNat

variable {s : State} {sg ss : Bool} {Kg Ks : Int}

theorem exp2Lookup_gridIndex (hs : Inv s) (K : Int) :
    exp2Lookup s.lut (gridIndex s.cfg K) = gridSignificand s K :=
  congrArg Prod.fst (linear_eq hs K)

theorem two_pow_le_gridSignificand (s : State) (K : Int) : 2 ^ 32 ≤ gridSignificand s K :=
  Nat.le_add_right ..

theorem gridSignificand_lt (hs : Inv s) (K : Int) : gridSignificand s K < 2 ^ 33 := by
  have := tableE_lt hs (gridIndex_lt s K)
  rw [gridSignificand]
  omega

/-- Within an octave the significands increase with the exponent (41_lut R54). -/
theorem gridSignificand_lt_of_lt (hs : Inv s) (sameOctave : Ks / gridOf s = Kg / gridOf s)
    (h : Ks < Kg) : gridSignificand s Ks < gridSignificand s Kg := by
  have division := Int.mul_ediv_add_emod Ks (gridOf s)
  have division' := Int.mul_ediv_add_emod Kg (gridOf s)
  have nonneg := Int.emod_nonneg Ks (b := gridOf s) (by exact_mod_cast (gridOf_pos s).ne')
  rw [sameOctave] at division
  exact Nat.add_lt_add_left (tableE_lt_tableE hs (by omega) (gridIndex_lt s Kg).le) _

theorem alignedSum_of_eq (hs : Inv s) (agree : sg = ss) :
    alignedSum s.cfg s.lut sg Kg ss Ks =
      gridSignificand s Kg * 2 ^ (Kg / gridOf s - Ks / gridOf s).toNat + gridSignificand s Ks := by
  rw [alignedSum, exp2Lookup_gridIndex hs, exp2Lookup_gridIndex hs, if_pos agree, Nat.shiftLeft_eq]
  rfl

theorem alignedSum_of_ne (hs : Inv s) (differ : sg ≠ ss) :
    alignedSum s.cfg s.lut sg Kg ss Ks =
      gridSignificand s Kg * 2 ^ (Kg / gridOf s - Ks / gridOf s).toNat - gridSignificand s Ks := by
  rw [alignedSum, exp2Lookup_gridIndex hs, exp2Lookup_gridIndex hs, if_neg differ,
    Nat.shiftLeft_eq]
  rfl

/-- Of two exponents the larger has the larger linear value, aligned at the octave of the smaller
(44_additive R80). -/
theorem gridSignificand_lt_aligned (hs : Inv s) (h : Ks < Kg) :
    gridSignificand s Ks <
      gridSignificand s Kg * 2 ^ (Kg / gridOf s - Ks / gridOf s).toNat := by
  have octaves := Int.ediv_le_ediv (c := gridOf s) (by exact_mod_cast gridOf_pos s) h.le
  obtain sameOctave | later := octaves.eq_or_lt
  · rw [sameOctave, Int.sub_self, Int.toNat_zero, pow_zero, mul_one]
    exact gridSignificand_lt_of_lt hs sameOctave h
  · calc gridSignificand s Ks < 2 ^ 32 * 2 ^ 1 := gridSignificand_lt hs Ks
      _ ≤ _ := Nat.mul_le_mul (two_pow_le_gridSignificand s Kg)
        (Nat.pow_le_pow_right two_pos (by omega))

theorem gridSignificand_le_aligned (hs : Inv s) (h : Ks ≤ Kg) :
    gridSignificand s Ks ≤
      gridSignificand s Kg * 2 ^ (Kg / gridOf s - Ks / gridOf s).toNat := by
  obtain rfl | h := h.eq_or_lt
  · rw [Int.sub_self, Int.toNat_zero, pow_zero, mul_one]
  · exact (gridSignificand_lt_aligned hs h).le

/-- The exact integer S, of which the difference of the natural numbers cuts nothing (44_additive R80). -/
theorem alignedSum_cast (hs : Inv s) (order : Ks ≤ Kg) :
    (alignedSum s.cfg s.lut sg Kg ss Ks : ℤ) =
      gridSignificand s Kg * 2 ^ (Kg / gridOf s - Ks / gridOf s).toNat +
        (if sg = ss then (gridSignificand s Ks : ℤ) else -gridSignificand s Ks) := by
  split
  next agree =>
    rw [alignedSum_of_eq hs agree]
    push_cast
    rfl
  next differ =>
    rw [alignedSum_of_ne hs differ, Nat.cast_sub (gridSignificand_le_aligned hs order)]
    push_cast
    rfl

/-- Cancellation is exact and happens in one way only (44_additive R80 (c)). -/
theorem alignedSum_eq_zero_iff (hs : Inv s) (order : Ks ≤ Kg) :
    alignedSum s.cfg s.lut sg Kg ss Ks = 0 ↔ sg ≠ ss ∧ Ks = Kg := by
  by_cases agree : sg = ss
  · have pos := two_pow_le_gridSignificand s Ks
    rw [alignedSum_of_eq hs agree]
    exact iff_of_false (by omega) fun h => h.1 agree
  · rw [alignedSum_of_ne hs agree]
    obtain rfl | smaller := order.eq_or_lt
    · simp [agree]
    · have positive := gridSignificand_lt_aligned hs smaller
      exact iff_of_false (by omega) fun h => smaller.ne h.2

theorem addOrdered_of_eq_zero {c : Cfg} {t : Lut} (zero : alignedSum c t sg Kg ss Ks = 0) :
    addOrdered c t sg Kg ss Ks = 0x0000 := by
  rw [addOrdered, if_pos zero]
  rfl

theorem addOrdered_of_ne_zero {c : Cfg} {t : Lut} (nonzero : alignedSum c t sg Kg ss Ks ≠ 0) :
    ∃ K, addOrdered c t sg Kg ss Ks = pack sg K := by
  rw [addOrdered, if_neg nonzero]
  exact ⟨_, rfl⟩

/-- The result of a sum other than 0, from the place `p` of its leading bit (44_additive R80). -/
theorem addOrdered_eq_pack (hs : Inv s) {p : Nat}
    (low : 2 ^ p ≤ alignedSum s.cfg s.lut sg Kg ss Ks)
    (high : alignedSum s.cfg s.lut sg Kg ss Ks < 2 ^ (p + 1)) :
    addOrdered s.cfg s.lut sg Kg ss Ks = pack sg ((Ks / gridOf s + p - 32) * gridOf s +
      roundIndex s (alignedSum s.cfg s.lut sg Kg ss Ks * 2 ^ 32 / 2 ^ p - 2 ^ 32)) := by
  rw [addOrdered]
  generalize alignedSum s.cfg s.lut sg Kg ss Ks = S at *
  have nonzero : S ≠ 0 := (Nat.two_pow_pos p |>.trans_le low).ne'
  have place : Nat.log2 S = p := (Nat.log2_eq_iff nonzero).mpr ⟨low, high⟩
  have fits := significand_lt S
  obtain ⟨lookup, -⟩ := log2LookupIsTheLeastIndex s hs (significand S - 2 ^ 32) (by omega)
  rw [if_neg nonzero, ← place, ← significand_eq, ← lookup]
  rfl

end Sys2Proof.Proofs
end

section
/-! The rule of ADD (44_additive R80), and when two Finite operands give Zero (R80 (c)). -/

open Sys2Proof Sys2Proof.Machine

namespace Sys2Proof.Proofs

theorem signNat_eq_signNat_iff (x y : Packed) : signNat x = signNat y ↔ signOf x = signOf y := by
  rw [signNat_eq, signNat_eq]
  cases signOf x <;> cases signOf y <;> decide

/-- In either position the operands meet in the order of their exponents. -/
theorem exec_add_of_expOf_le (s : State) {a b g h r : Packed} (hg : isFinite g) (hh : isFinite h)
    (operands : (g = a ∧ h = b) ∨ (g = b ∧ h = a)) (order : expOf h ≤ expOf g)
    (result : addOrdered s.cfg s.lut (signOf g) (expOf g) (signOf h) (expOf h) = r) :
    exec (.add a b) s = .next (answered s (inR r)) := by
  obtain ⟨rfl, rfl⟩ | ⟨rfl, rfl⟩ := operands
  · exact exec_add_of_eq s ((addPacked_of_expOf_le _ _ hg hh order).trans result)
  · exact exec_add_of_eq s ((addPacked_swap_of_expOf_le _ _ hg hh order).trans result)

/-- Settles O43: the sentinels, and the datapath at the place of the leading bit of the exact sum. -/
theorem addReconstructsAndRounds : Obligations.AddReconstructsAndRounds := by
  intro s a b
  refine ⟨wordB16_eq_wordOf .., ?_, ?_, ?_, ?_⟩
  · rintro (rfl | rfl)
    · exact exec_add_of_eq s (addPacked_nar_left ..)
    · exact exec_add_of_eq s (addPacked_nar_right ..)
  · rintro rfl -
    exact exec_add_of_eq s (addPacked_zero_left ..)
  · rintro rfl -
    exact exec_add_of_eq s (addPacked_zero_right ..)
  · rintro hs ha hb g h operands order Ng Nh S rfl rfl sum
    have hg : isFinite g := by obtain ⟨rfl, -⟩ | ⟨rfl, -⟩ := operands <;> assumption
    have hh : isFinite h := by obtain ⟨-, rfl⟩ | ⟨-, rfl⟩ := operands <;> assumption
    have exactSum : S = (alignedSum s.cfg s.lut (signOf g) (expOf g) (signOf h) (expOf h) : ℕ) := by
      rw [alignedSum_cast hs order, sum]
      simp only [signNat_eq_signNat_iff, gridSignificand]
      push_cast
      rfl
    clear sum
    subst exactSum
    refine ⟨Int.natCast_nonneg _, fun zero => ?_, fun p low high => ?_⟩
    · exact exec_add_of_expOf_le s hg hh operands order
        (addOrdered_of_eq_zero (Int.natCast_eq_zero.mp zero))
    · rw [exec_add_of_expOf_le s hg hh operands order
        (addOrdered_eq_pack hs (p := p) (by exact_mod_cast low) (by exact_mod_cast high)),
        inR_pack, signNat_eq, Int.toNat_natCast]

/-- Unless one operand is the negation of the other the sum is packed (44_additive R80 (c)). -/
theorem isFinite_addPacked_of_expOf_le {s : State} {g h : Packed} (hs : Inv s) (hg : isFinite g)
    (hh : isFinite h) (order : expOf h ≤ expOf g) (notNegation : h ≠ negPacked g) :
    isFinite (addPacked s.cfg s.lut g h) := by
  have nonzero : alignedSum s.cfg s.lut (signOf g) (expOf g) (signOf h) (expOf h) ≠ 0 := by
    rw [Ne, alignedSum_eq_zero_iff hs order]
    rintro ⟨differ, same⟩
    refine notNegation (packed_ext ?_ ?_)
    · rw [signOf_negPacked hg]
      exact Bool.eq_not_of_ne differ.symm
    · rw [expOf_negPacked hg, same]
  obtain ⟨K, packed⟩ := addOrdered_of_ne_zero nonzero
  rw [addPacked_of_expOf_le _ _ hg hh order, packed]
  exact isFinite_pack ..

theorem addPacked_negPacked_self {s : State} {a : Packed} (hs : Inv s) (ha : isFinite a) :
    addPacked s.cfg s.lut a (negPacked a) = 0x0000 := by
  have order := (expOf_negPacked ha).le
  rw [addPacked_of_expOf_le _ _ ha (isFinite_negPacked ha) order]
  refine addOrdered_of_eq_zero ?_
  rw [alignedSum_eq_zero_iff hs order, signOf_negPacked ha]
  exact ⟨(Bool.not_ne_self _).symm, expOf_negPacked ha⟩

/-- Settles O47, for the larger operand in either position. -/
theorem sumIsZeroOnlyByCancellation : Obligations.SumIsZeroOnlyByCancellation := by
  intro s a b hs ha hb
  rw [flipped_eq_negPacked]
  refine ⟨?_, fun notNegation => ⟨addPacked s.cfg s.lut a b, ?_, exec_add_of_eq s rfl⟩⟩
  · rintro rfl
    exact exec_add_of_eq s (addPacked_negPacked_self hs ha)
  · obtain order | order := le_total (expOf b) (expOf a)
    · exact isFinite_addPacked_of_expOf_le hs ha hb order notNegation
    · have notNegation' : a ≠ negPacked b := by
        rintro rfl
        exact notNegation (negPacked_involutive b).symm
      rw [addPacked_comm]
      exact isFinite_addPacked_of_expOf_le hs hb ha order notNegation'

end Sys2Proof.Proofs
end

section
/-! How far the thresholds lie from the grid fractions beside them (41_lut R52, R53): against the points
of the octave, in either mode. -/

open Sys2Proof.Machine

namespace Sys2Proof.Proofs

theorem one_add_mul_le_two_rpow {d : ℝ} (hd : 0 ≤ d) : 1 + 0.69 * d ≤ (2 : ℝ) ^ d := by
  rw [Real.rpow_def_of_pos two_pos]
  have := Real.add_one_le_exp (Real.log 2 * d)
  nlinarith [Real.log_two_gt_d9]

theorem octavePoint_add_sub (a d : ℝ) :
    octavePoint (a + d) - octavePoint a = 2 ^ 32 * 2 ^ a * (2 ^ d - 1) := by
  rw [octavePoint, octavePoint, Real.rpow_add two_pos]
  ring

/-- The octave rises at least by its slope at the lower point. -/
theorem octavePoint_add_sub_ge (a : ℝ) {d : ℝ} (hd : 0 ≤ d) :
    2 ^ 32 * 2 ^ a * (0.69 * d) ≤ octavePoint (a + d) - octavePoint a := by
  rw [octavePoint_add_sub]
  have := one_add_mul_le_two_rpow hd
  exact mul_le_mul_of_nonneg_left (by linarith) (by positivity)

/-- The midpoint in log space lies below the linear one, by more than the rounding of the entries
(44_additive R83). -/
theorem octavePoint_midpoint_add_four_le {a d : ℝ} (ha : 0 ≤ a) (hd : 1 / 4096 ≤ d) :
    2 * octavePoint (a + d) + 4 ≤ octavePoint a + octavePoint (a + d + d) := by
  have first := octavePoint_add_sub a d
  have second := octavePoint_add_sub (a + d) d
  rw [Real.rpow_add two_pos] at second
  have start : 1 ≤ (2 : ℝ) ^ a := Real.one_le_rpow one_le_two ha
  have ratio : 1 / 8192 ≤ (2 : ℝ) ^ d - 1 := by
    have := one_add_mul_le_two_rpow (d := d) (by linarith)
    linarith
  have square : (1 / 8192) ^ 2 ≤ ((2 : ℝ) ^ d - 1) ^ 2 := pow_le_pow_left₀ (by norm_num) ratio 2
  have bend : 4 ≤ 2 ^ 32 * (2 ^ a * ((2 : ℝ) ^ d - 1) ^ 2) := by nlinarith
  linarith

variable {s : State} {i : Nat}

theorem tableE_near (hs : Inv s) (hi : i ≤ gridOf s) :
    |(tableE s i : ℝ) - octavePoint (i / (gridOf s : ℕ))| ≤ 1 / 2 := by
  rw [tableE_eq hs hi]
  exact gridFraction_near (gridOf_pos s) (gridOf_le hs) hi

/-- Half a grid step, in octaves. -/
noncomputable def halfStep (s : State) : ℝ := 1 / (2 * (gridOf s : ℕ))

theorem halfStep_mul_gridOf (s : State) : halfStep s * (gridOf s : ℕ) = 1 / 2 := by
  have := gridOf_pos s
  rw [halfStep]
  field_simp

theorem le_gridOf (hs : Inv s) : 128 ≤ gridOf s := le_gridPoints hs.1

theorem halfStep_bounds (hs : Inv s) : 1 / 4096 ≤ halfStep s ∧ halfStep s ≤ 1 / 256 := by
  have unit := halfStep_mul_gridOf s
  have low : (128 : ℝ) ≤ (gridOf s : ℕ) := by exact_mod_cast le_gridOf hs
  have high : ((gridOf s : ℕ) : ℝ) ≤ 2048 := by exact_mod_cast gridOf_le hs
  constructor <;> nlinarith

theorem tableE_succ_near (hs : Inv s) (hi : i < gridOf s) :
    |(tableE s (i + 1) : ℝ) -
      octavePoint (i / (gridOf s : ℕ) + halfStep s + halfStep s)| ≤ 1 / 2 := by
  have point : (i / (gridOf s : ℕ) + halfStep s + halfStep s : ℝ) =
      ((i + 1 : ℕ) : ℝ) / (gridOf s : ℕ) := by
    have := gridOf_pos s
    rw [halfStep]
    push_cast
    field_simp
    ring
  rw [point]
  exact tableE_near hs hi

theorem tableT_log_near_halfStep (hs : Inv s) (mode : s.cfg.rmode = .log) (hi : i < gridOf s) :
    |(tableT s i : ℝ) - octavePoint (i / (gridOf s : ℕ) + halfStep s)| ≤ 1 / 2 := by
  have point : (i / (gridOf s : ℕ) + halfStep s : ℝ) = (2 * i + 1) / (2 * (gridOf s : ℕ)) := by
    have := gridOf_pos s
    rw [halfStep]
    field_simp
  rw [point]
  exact tableT_log_near hs mode hi

/-- In log mode the threshold lies clearly below the linear midpoint (44_additive R83). -/
theorem tableT_log_lt_midpoint (hs : Inv s) (mode : s.cfg.rmode = .log) (hi : i < gridOf s) :
    2 * tableT s i + 2 ≤ tableE s i + tableE s (i + 1) := by
  have bend := octavePoint_midpoint_add_four_le (a := i / (gridOf s : ℕ)) (by positivity)
    (halfStep_bounds hs).1
  have lower := abs_le.mp (tableE_near hs hi.le)
  have upper := abs_le.mp (tableE_succ_near hs hi)
  have middle := abs_le.mp (tableT_log_near_halfStep hs mode hi)
  have : 2 * (tableT s i : ℝ) + 2 ≤ tableE s i + tableE s (i + 1) := by linarith
  exact_mod_cast this

/-- In either mode the threshold is at most a unit above the linear midpoint. -/
theorem tableT_le_midpoint (hs : Inv s) (hi : i < gridOf s) :
    2 * tableT s i ≤ tableE s i + tableE s (i + 1) + 2 := by
  cases mode : s.cfg.rmode with
  | lin =>
    rw [tableT_lin hs mode hi, linThreshold]
    split <;> omega
  | log =>
    have := tableT_log_lt_midpoint hs mode hi
    omega

/-- In either mode the threshold is at most half a unit below the midpoint in log space. -/
theorem octavePoint_le_tableT (hs : Inv s) (hi : i < gridOf s) :
    octavePoint (i / (gridOf s : ℕ) + halfStep s) - 1 / 2 ≤ tableT s i := by
  cases mode : s.cfg.rmode with
  | lin =>
    have bend := octavePoint_midpoint_add_four_le (a := i / (gridOf s : ℕ)) (by positivity)
      (halfStep_bounds hs).1
    have lower := abs_le.mp (tableE_near hs hi.le)
    have upper := abs_le.mp (tableE_succ_near hs hi)
    have midpoint : tableE s i + tableE s (i + 1) ≤ 2 * tableT s i := by
      rw [tableT_lin hs mode hi, linThreshold]
      split <;> omega
    have midpoint' : (tableE s i + tableE s (i + 1) : ℝ) ≤ 2 * tableT s i := by
      exact_mod_cast midpoint
    linarith
  | log =>
    have middle := abs_le.mp (tableT_log_near_halfStep hs mode hi)
    linarith

/-- The real significand `2^32 * 2^(i/F)` of a grid point. -/
noncomputable def realSignificand (s : State) (i : Nat) : ℝ := 2 ^ 32 * 2 ^ ((i : ℝ) / (gridOf s : ℕ))

theorem octavePoint_eq_realSignificand (s : State) (i : Nat) :
    octavePoint (i / (gridOf s : ℕ)) = realSignificand s i - 2 ^ 32 := by
  rw [octavePoint, realSignificand, mul_sub, mul_one]

theorem two_pow_le_realSignificand (s : State) (i : Nat) : 2 ^ 32 ≤ realSignificand s i := by
  have start : 1 ≤ (2 : ℝ) ^ ((i : ℝ) / (gridOf s : ℕ)) :=
    Real.one_le_rpow one_le_two (by positivity)
  rw [realSignificand]
  linarith

/-- Half a grid step, less the rounding of the entries, is more than `1/(4F)` of the significand, because
`ln 2 / 2` is more than `1/4` (44_additive R82 (g)). -/
theorem le_four_mul_gridOf_mul (hs : Inv s) {x : ℝ}
    (gap : realSignificand s i * (0.69 * halfStep s) - 3 / 2 ≤ x) :
    1.37 * realSignificand s i ≤ 4 * (gridOf s : ℕ) * x := by
  have start := two_pow_le_realSignificand s i
  have small : ((gridOf s : ℕ) : ℝ) ≤ 2048 := by exact_mod_cast gridOf_le hs
  calc 1.37 * realSignificand s i
      ≤ 2.76 * realSignificand s i * (halfStep s * (gridOf s : ℕ)) - 6 * (gridOf s : ℕ) := by
        rw [halfStep_mul_gridOf]
        linarith
    _ = 4 * (gridOf s : ℕ) * (realSignificand s i * (0.69 * halfStep s) - 3 / 2) := by ring
    _ ≤ 4 * (gridOf s : ℕ) * x := mul_le_mul_of_nonneg_left gap (by positivity)

/-- The threshold above a grid significand is more than `1/(4F)` of the significand away (44_additive
R82 (g)). -/
theorem gridPart_lt_tableT_sub_tableE (hs : Inv s) (hi : i < gridOf s) :
    2 ^ 32 + tableE s i + 4 * gridOf s * tableE s i < 4 * gridOf s * tableT s i := by
  have positive : 0 ≤ halfStep s := (by norm_num : (0 : ℝ) ≤ 1 / 4096).trans (halfStep_bounds hs).1
  have rise := octavePoint_add_sub_ge (i / (gridOf s : ℕ)) positive
  have lower := abs_le.mp (tableE_near hs hi.le)
  have middle := octavePoint_le_tableT hs hi
  have scaled := le_four_mul_gridOf_mul hs (i := i) (x := tableT s i - tableE s i)
    (by rw [realSignificand]; linarith)
  have start := two_pow_le_realSignificand s i
  rw [octavePoint_eq_realSignificand] at lower
  have : (2 ^ 32 + tableE s i + 4 * (gridOf s : ℕ) * tableE s i : ℝ) <
      4 * (gridOf s : ℕ) * tableT s i := by linarith
  exact_mod_cast this

/-- The threshold below a grid significand is at least `1/(4F)` of the significand away (44_additive
R82 (g)). -/
theorem gridPart_le_tableE_sub_tableT (hs : Inv s) (hi : i < gridOf s) :
    2 ^ 32 + tableE s (i + 1) + 4 * gridOf s * tableT s i ≤ 4 * gridOf s * tableE s (i + 1) := by
  obtain ⟨low, high⟩ := halfStep_bounds hs
  have rise := octavePoint_add_sub_ge (i / (gridOf s : ℕ)) (d := halfStep s + halfStep s)
    (by linarith)
  have height := octavePoint_add_sub (i / (gridOf s : ℕ)) (halfStep s + halfStep s)
  have ratio : (2 : ℝ) ^ (halfStep s + halfStep s) ≤ 1 + 1 / 128 := by
    have concave := rpow_one_add_le_one_add_mul_self (s := 1) (by norm_num)
      (p := halfStep s + halfStep s) (by linarith) (by linarith)
    rw [one_add_one_eq_two] at concave
    linarith
  rw [← add_assoc, ← realSignificand] at rise height
  have start := two_pow_le_realSignificand s i
  have lower := abs_le.mp (tableE_near hs hi.le)
  have upper := abs_le.mp (tableE_succ_near hs hi)
  have middle : (2 * tableT s i : ℝ) ≤ tableE s i + tableE s (i + 1) + 2 := by
    exact_mod_cast tableT_le_midpoint hs hi
  have scaled := le_four_mul_gridOf_mul hs (i := i) (x := tableE s (i + 1) - tableT s i)
    (by linarith)
  have grown : realSignificand s i * (2 ^ (halfStep s + halfStep s) - 1) ≤
      realSignificand s i * (1 / 128) := mul_le_mul_of_nonneg_left (by linarith) (by linarith)
  rw [octavePoint_eq_realSignificand] at height
  have : (2 ^ 32 + tableE s (i + 1) + 4 * (gridOf s : ℕ) * tableT s i : ℝ) ≤
      4 * (gridOf s : ℕ) * tableE s (i + 1) := by linarith
  exact_mod_cast this

end Sys2Proof.Proofs
end

section
/-! From the exact sum to the index of the result (44_additive R82, R83): which side of its thresholds
the fraction of the sum lies on. -/

open Sys2Proof.Machine

namespace Sys2Proof.Proofs

variable {s : State} {sg ss : Bool} {Kg Ks K : Int} {i m n : Nat}

/-- A fraction from a grid significand up to the threshold above it has that grid point's index. -/
theorem roundIndex_eq_of_tableE_le (hs : Inv s) (hi : i < gridOf s) (low : tableE s i ≤ m)
    (high : m < tableT s i) : roundIndex s m = i := by
  have notAbove : ¬ i < roundIndex s m := by
    rw [lt_roundIndex_iff hs hi]
    omega
  have notBelow : ¬ roundIndex s m < i := fun below => by
    have threshold := lt_tableT_roundIndex hs (m := m) (below.trans hi)
    have between := tableT_between hs (below.trans hi)
    have order := tableE_le_tableE hs (Order.add_one_le_of_lt below) hi.le
    omega
  omega

/-- A fraction from a threshold up to the grid significand above it has that grid point's index. -/
theorem roundIndex_eq_succ_of_tableT_le (hs : Inv s) (hi : i < gridOf s) (low : tableT s i ≤ m)
    (high : m ≤ tableE s (i + 1)) : roundIndex s m = i + 1 := by
  have above : i < roundIndex s m := (lt_roundIndex_iff hs hi m).mpr low
  have notAbove : ¬ i + 1 < roundIndex s m := fun later => by
    have inGrid := later.trans_le (roundIndex_le hs m)
    have threshold := tableT_le_of_lt_roundIndex hs later
    have between := tableT_between hs inGrid
    omega
  omega

/-- The linear midpoint of two neighbouring grid significands has the index of one of them. -/
theorem roundIndex_midpoint (hs : Inv s) (hi : i < gridOf s) :
    roundIndex s ((tableE s i + tableE s (i + 1)) / 2) =
      if tableT s i ≤ (tableE s i + tableE s (i + 1)) / 2 then i + 1 else i := by
  have order := tableE_lt_tableE hs (Nat.lt_add_one i) hi
  split
  next reached => exact roundIndex_eq_succ_of_tableT_le hs hi reached (by omega)
  next below => exact roundIndex_eq_of_tableE_le hs hi (by omega) (by omega)

/-- The result of a sum whose top 33 bits are those above its `n` lowest (44_additive R80). -/
theorem addOrdered_eq_pack_of_div (hs : Inv s) (fits : m < 2 ^ 32)
    (top : alignedSum s.cfg s.lut sg Kg ss Ks / 2 ^ n = 2 ^ 32 + m) :
    addOrdered s.cfg s.lut sg Kg ss Ks =
      pack sg ((Ks / gridOf s + n) * gridOf s + roundIndex s m) := by
  have low : 2 ^ (32 + n) ≤ alignedSum s.cfg s.lut sg Kg ss Ks := by
    rw [pow_add, ← Nat.le_div_iff_mul_le (Nat.two_pow_pos n), top]
    exact Nat.le_add_right ..
  have high : alignedSum s.cfg s.lut sg Kg ss Ks < 2 ^ (32 + n + 1) := by
    rw [add_right_comm, pow_add, ← Nat.div_lt_iff_lt_mul (Nat.two_pow_pos n), top]
    omega
  rw [addOrdered_eq_pack hs low high, add_comm 32 n, pow_add,
    Nat.mul_div_mul_right _ _ (Nat.two_pow_pos 32), top, Nat.add_sub_cancel_left]
  congr 3
  push_cast
  ring

theorem octave_mul_add_gridIndex (s : State) (K : Int) :
    K / gridOf s * gridOf s + (K % gridOf s).toNat = K := by
  rw [Int.toNat_of_nonneg (Int.emod_nonneg K (by exact_mod_cast (gridOf_pos s).ne'))]
  exact Int.ediv_mul_add_emod K _

end Sys2Proof.Proofs
end

section
/-! Doubling, and the sum of two neighbouring grid values (44_additive R82 (e), R83). -/

open Sys2Proof Sys2Proof.Machine

namespace Sys2Proof.Proofs

variable {s : State} {a x y : Packed}

theorem exec_add_of_pack (s : State) {a b g : Packed} {K : Int}
    (h : addPacked s.cfg s.lut a b = pack (signOf g) K) :
    exec (.add a b) s = .next (answered s (clampedWord (signNat g) (K + 16384))) := by
  rw [exec_add_of_eq s h, inR_pack, signNat_eq]

/-- Twice a grid significand has the same top 33 bits, so the index stays (44_additive R82 (e)). -/
theorem addPacked_self (hs : Inv s) (ha : isFinite a) :
    addPacked s.cfg s.lut a a = pack (signOf a) (expOf a + gridOf s) := by
  have index := gridIndex_lt s (expOf a)
  have top : alignedSum s.cfg s.lut (signOf a) (expOf a) (signOf a) (expOf a) / 2 ^ 1 =
      2 ^ 32 + tableE s (expOf a % gridOf s).toNat := by
    rw [alignedSum_of_eq hs rfl, Int.sub_self, Int.toNat_zero, gridSignificand]
    omega
  rw [addPacked_of_expOf_le _ _ ha ha le_rfl,
    addOrdered_eq_pack_of_div hs (tableE_lt hs index) top, roundIndex_tableE hs index]
  conv_rhs => rw [← octave_mul_add_gridIndex s (expOf a)]
  congr 1
  push_cast
  ring

/-- Settles O46, as the word of the packed result. -/
theorem doublingAddsOneOctave : Obligations.DoublingAddsOneOctave := by
  intro s a hs ha
  exact exec_add_of_pack s (addPacked_self hs ha)

theorem tableE_gridOf (s : State) : tableE s (gridOf s) = 2 ^ 32 := if_pos rfl

/-- Aligned at the octave of the exponent before, a significand is the next entry of the table, also
when it starts the next octave: `E[F] = 2^32` (41_lut R52, 44_additive R83). -/
theorem gridSignificand_succ_aligned (hs : Inv s) (K : Int) :
    gridSignificand s (K + 1) * 2 ^ ((K + 1) / gridOf s - K / gridOf s).toNat =
      2 ^ 32 + tableE s ((K % gridOf s).toNat + 1) := by
  have pos : (0 : ℤ) < gridOf s := by exact_mod_cast gridOf_pos s
  have index := gridIndex_lt s K
  have division := octave_mul_add_gridIndex s K
  obtain last | inner := (Order.add_one_le_of_lt index).eq_or_lt
  · obtain ⟨octave, first⟩ : (K + 1) / gridOf s = K / gridOf s + 1 ∧ (K + 1) % gridOf s = 0 := by
      rw [Int.ediv_emod_unique pos]
      refine ⟨?_, le_rfl, pos⟩
      linarith [show ((K % gridOf s).toNat : ℤ) + 1 = gridOf s by exact_mod_cast last]
    rw [gridSignificand, octave, first, last, Int.toNat_zero, tableE_zero hs, add_sub_cancel_left,
      tableE_gridOf]
    rfl
  · obtain ⟨octave, next⟩ : (K + 1) / gridOf s = K / gridOf s ∧
        (K + 1) % gridOf s = ((K % gridOf s).toNat + 1 : ℕ) := by
      rw [Int.ediv_emod_unique pos]
      refine ⟨?_, Int.natCast_nonneg _, by exact_mod_cast inner⟩
      rw [Nat.cast_succ]
      linarith
    rw [gridSignificand, octave, next, Int.toNat_natCast, Int.sub_self, Int.toNat_zero, pow_zero,
      mul_one]

/-- The sum of two neighbours is their linear midpoint, an octave up, and rounds to the upper one if
the midpoint reaches the threshold between them (44_additive R83). -/
theorem addPacked_neighbours (hs : Inv s) (hx : isFinite x) (hy : isFinite y)
    (agree : signOf x = signOf y) (next : expOf y = expOf x - 1) {j : Nat}
    (hj : j = (expOf y % gridOf s).toNat) :
    addPacked s.cfg s.lut x y = pack (signOf x) (expOf x + gridOf s -
      if tableT s j ≤ (tableE s j + tableE s (j + 1)) / 2 then 0 else 1) := by
  have index : j < gridOf s := hj ▸ gridIndex_lt s (expOf y)
  have succ : expOf x = expOf y + 1 := by omega
  have small := tableE_lt hs index
  have small' := tableE_le_tableE hs (Order.add_one_le_of_lt index) le_rfl
  rw [tableE_gridOf] at small'
  have top : alignedSum s.cfg s.lut (signOf x) (expOf x) (signOf y) (expOf y) / 2 ^ 1 =
      2 ^ 32 + (tableE s j + tableE s (j + 1)) / 2 := by
    rw [alignedSum_of_eq hs agree, succ, gridSignificand_succ_aligned hs, gridSignificand, ← hj]
    omega
  rw [addPacked_of_expOf_le _ _ hx hy (by omega), addOrdered_eq_pack_of_div hs (by omega) top,
    roundIndex_midpoint hs index]
  have division := octave_mul_add_gridIndex s (expOf y)
  rw [← hj] at division
  congr 1
  split
  · rw [Nat.cast_one, Nat.cast_succ]
    linarith
  · rw [Nat.cast_one]
    linarith

theorem two_dvd_gridOf (hs : Inv s) : 2 ∣ gridOf s :=
  dvd_pow_self 2 (Nat.ne_of_gt (Nat.lt_of_lt_of_le (by norm_num) hs.1.1))

/-- F is even, so the index has the parity of the exponent (44_additive R83). -/
theorem gridIndex_mod_two (hs : Inv s) (K : Int) : ((K % gridOf s).toNat : ℤ) % 2 = K % 2 := by
  rw [Int.toNat_of_nonneg (Int.emod_nonneg K (by exact_mod_cast (gridOf_pos s).ne')),
    Int.emod_emod_of_dvd K (by exact_mod_cast two_dvd_gridOf hs)]

/-- Settles O49: the threshold is at most the midpoint, in lin mode, exactly if the entries' sum is even
and the index odd, and in log mode always. -/
theorem neighbourSumsFollowTheTieRule : Obligations.NeighbourSumsFollowTheTieRule := by
  intro s x y hs hx hy signs next X hX
  have index := gridIndex_lt s (expOf y)
  have parity := gridIndex_mod_two hs (expOf y)
  have evenGrid := two_dvd_gridOf hs
  have sum := addPacked_neighbours hs hx hy ((signNat_eq_signNat_iff x y).mp signs) next rfl
  generalize (expOf y % gridOf s).toNat = j at *
  rw [← hX] at sum
  have upper (reached : tableT s j ≤ X / 2) : exec (.add x y) s =
      .next (answered s (clampedWord (signNat x) (expOf x + gridOf s + 16384))) := by
    rw [if_pos reached, Int.sub_zero] at sum
    exact exec_add_of_pack s sum
  have lower (below : ¬ tableT s j ≤ X / 2) : exec (.add x y) s =
      .next (answered s (clampedWord (signNat x) (expOf x + gridOf s - 1 + 16384))) := by
    rw [if_neg below] at sum
    exact exec_add_of_pack s sum
  have lin_iff (lin : s.cfg.rmode = .lin) := tableT_le_iff_of_lin hs lin index (X / 2)
  refine ⟨fun lin even L neighbour evenL => ?_, fun lin odd => lower ?_, fun log => upper ?_⟩
  · by_cases reached : tableT s j ≤ X / 2
    · have oddIndex := (lin_iff lin).mp reached
      obtain rfl : L = expOf x + gridOf s := by omega
      exact upper reached
    · have evenIndex := (lin_iff lin).not.mp reached
      obtain rfl : L = expOf x + gridOf s - 1 := by omega
      exact lower reached
  · rw [lin_iff lin]
    omega
  · have below := tableT_log_lt_midpoint hs log index
    omega

end Sys2Proof.Proofs
end

section
/-! Absorption (44_additive R82 (g)): an operand of at most `1/(4F)` of the other moves the fraction of
the sum across no threshold. -/

open Sys2Proof Sys2Proof.Machine

namespace Sys2Proof.Proofs

variable {s : State} {g h : Packed} {i M R : Nat}

/-- The top 33 bits of a grid value with a distant operand added, in units `M` of the smaller octave. -/
theorem roundIndex_of_distant_sum (hs : Inv s) (hi : i < gridOf s) (hM : 0 < M)
    (distant : 4 * gridOf s * R ≤ (2 ^ 32 + tableE s i) * M) :
    ∃ m < 2 ^ 32, ((2 ^ 32 + tableE s i) * M + R) / M = 2 ^ 32 + m ∧ roundIndex s m = i := by
  have gap := gridPart_lt_tableT_sub_tableE hs hi
  have order := (tableT_between hs hi).2
  have fits := tableE_le_tableE hs (Order.add_one_le_of_lt hi) le_rfl
  rw [tableE_gridOf] at fits
  have small : R / M < tableT s i - tableE s i := by
    rw [Nat.div_lt_iff_lt_mul hM]
    refine Nat.lt_of_mul_lt_mul_left (a := 4 * gridOf s) (distant.trans_lt ?_)
    rw [← mul_assoc, Nat.mul_sub]
    exact Nat.mul_lt_mul_of_pos_right (by omega) hM
  rw [mul_comm, Nat.mul_add_div hM, add_assoc]
  generalize R / M = part at small
  exact ⟨tableE s i + part, by omega, rfl,
    roundIndex_eq_of_tableE_le hs hi (by omega) (by omega)⟩

/-- The top 33 bits of a grid value with a distant operand subtracted; the value may be the end of an
octave. -/
theorem roundIndex_of_distant_difference (hs : Inv s) (hi : i < gridOf s) (hM : 0 < M) (hR : 0 < R)
    (distant : 4 * gridOf s * R ≤ (2 ^ 32 + tableE s (i + 1)) * M) :
    ∃ m < 2 ^ 32, ((2 ^ 32 + tableE s (i + 1)) * M - R) / M = 2 ^ 32 + m ∧
      roundIndex s m = i + 1 := by
  have gap := gridPart_le_tableE_sub_tableT hs hi
  have order := (tableT_between hs hi).2
  have fits := tableE_le_tableE hs (Order.add_one_le_of_lt hi) le_rfl
  rw [tableE_gridOf] at fits
  have small : R ≤ (tableE s (i + 1) - tableT s i) * M := by
    refine le_of_mul_le_mul_left (distant.trans ?_) (Nat.mul_pos four_pos (gridOf_pos s))
    rw [← mul_assoc, Nat.mul_sub]
    exact Nat.mul_le_mul_right M (by omega)
  have low : 2 ^ 32 + tableT s i ≤ ((2 ^ 32 + tableE s (i + 1)) * M - R) / M := by
    rw [Nat.le_div_iff_mul_le hM]
    have split : (2 ^ 32 + tableE s (i + 1)) * M =
        (2 ^ 32 + tableT s i) * M + (tableE s (i + 1) - tableT s i) * M := by
      rw [← add_mul]
      congr 1
      omega
    omega
  have high : ((2 ^ 32 + tableE s (i + 1)) * M - R) / M < 2 ^ 32 + tableE s (i + 1) := by
    rw [Nat.div_lt_iff_lt_mul hM]
    have := Nat.mul_pos (show 0 < 2 ^ 32 + tableE s (i + 1) by omega) hM
    omega
  generalize ((2 ^ 32 + tableE s (i + 1)) * M - R) / M = top at *
  exact ⟨top - 2 ^ 32, by omega, by omega,
    roundIndex_eq_succ_of_tableT_le hs hi (by omega) (by omega)⟩

theorem octave_add_le_of_distant {Kg Kh : Int}
    (distant : Kh + (s.cfg.f.toNat + 2) * gridOf s ≤ Kg) :
    Kh / gridOf s + (s.cfg.f.toNat + 2) ≤ Kg / gridOf s := by
  have pos : (0 : ℤ) < gridOf s := by exact_mod_cast gridOf_pos s
  rw [← Int.add_mul_ediv_right _ _ pos.ne']
  exact Int.ediv_le_ediv pos distant

/-- An operand `f + 2` octaves or more below the other has at most `1/(4F)` of its linear value:
`2^(f+2) = 4 * F`. -/
theorem gridSignificand_mul_le_of_distant (hs : Inv s) {Kg Kh : Int}
    (distant : Kh + (s.cfg.f.toNat + 2) * gridOf s ≤ Kg) :
    4 * gridOf s * gridSignificand s Kh ≤
      gridSignificand s Kg * 2 ^ (Kg / gridOf s - Kh / gridOf s).toNat := by
  have nonzero : (gridOf s : ℤ) ≠ 0 := by exact_mod_cast (gridOf_pos s).ne'
  have octaves := octave_add_le_of_distant distant
  have shift : (Kg / gridOf s - Kh / gridOf s).toNat = (s.cfg.f.toNat + 2) +
      (Kg / gridOf s - (Kh / gridOf s + (s.cfg.f.toNat + 2))).toNat := by omega
  have lifted := gridSignificand_le_aligned hs distant
  rw [Int.add_mul_ediv_right _ _ nonzero, gridSignificand, Int.add_mul_emod_self_right,
    ← gridSignificand] at lifted
  calc 4 * gridOf s * gridSignificand s Kh
      ≤ 4 * gridOf s * (gridSignificand s Kg *
          2 ^ (Kg / gridOf s - (Kh / gridOf s + (s.cfg.f.toNat + 2))).toNat) :=
        Nat.mul_le_mul_left _ lifted
    _ = gridSignificand s Kg * 2 ^ (Kg / gridOf s - Kh / gridOf s).toNat := by
        rw [shift, pow_add, pow_add]
        ring

theorem addOrdered_absorbs_of_eq {sg ss : Bool} {Kg Kh : Int} (hs : Inv s) (agree : sg = ss)
    (distant : Kh + (s.cfg.f.toNat + 2) * gridOf s ≤ Kg) :
    addOrdered s.cfg s.lut sg Kg ss Kh = pack sg Kg := by
  obtain ⟨m, fits, top, index⟩ := roundIndex_of_distant_sum hs (gridIndex_lt s Kg)
    (Nat.two_pow_pos _) (gridSignificand_mul_le_of_distant hs distant)
  rw [← gridSignificand, ← alignedSum_of_eq hs agree] at top
  have octaves := octave_add_le_of_distant distant
  have division := octave_mul_add_gridIndex s Kg
  have exponent : Kh / gridOf s + (Kg / gridOf s - Kh / gridOf s).toNat = Kg / gridOf s := by omega
  rw [addOrdered_eq_pack_of_div hs fits top, index, exponent, division]

/-- A difference from the first grid point of an octave has its leading bit an octave lower, and rounds
to the end of that octave (44_additive R82 (g)). -/
theorem addOrdered_absorbs_of_ne {sg ss : Bool} {Kg Kh : Int} (hs : Inv s) (differ : sg ≠ ss)
    (distant : Kh + (s.cfg.f.toNat + 2) * gridOf s ≤ Kg) :
    addOrdered s.cfg s.lut sg Kg ss Kh = pack sg Kg := by
  have small := gridSignificand_mul_le_of_distant hs distant
  have nonzero : 0 < gridSignificand s Kh :=
    (Nat.two_pow_pos 32).trans_le (two_pow_le_gridSignificand s Kh)
  have sum := alignedSum_of_ne (Kg := Kg) (Ks := Kh) hs differ
  have octaves := octave_add_le_of_distant distant
  have division := octave_mul_add_gridIndex s Kg
  cases place : (Kg % gridOf s).toNat with
  | succ i =>
    have inGrid : i < gridOf s := by
      have := gridIndex_lt s Kg
      omega
    have start : gridSignificand s Kg = 2 ^ 32 + tableE s (i + 1) := by
      rw [gridSignificand, place]
    rw [start] at small sum
    obtain ⟨m, fits, top, index⟩ :=
      roundIndex_of_distant_difference hs inGrid (Nat.two_pow_pos _) nonzero small
    have exponent : Kh / gridOf s + (Kg / gridOf s - Kh / gridOf s).toNat = Kg / gridOf s := by
      omega
    rw [addOrdered_eq_pack_of_div hs fits (sum ▸ top), index, exponent, ← place, division]
  | zero =>
    obtain ⟨i, last⟩ := Nat.exists_eq_add_one.mpr (gridOf_pos s)
    obtain ⟨n, shift⟩ : ∃ n, (Kg / gridOf s - Kh / gridOf s).toNat = n + 1 :=
      Nat.exists_eq_add_one.mpr (by omega)
    have start : gridSignificand s Kg * 2 ^ (n + 1) = (2 ^ 32 + tableE s (i + 1)) * 2 ^ n := by
      rw [gridSignificand, place, tableE_zero hs, ← last, tableE_gridOf]
      ring
    rw [shift, start] at small sum
    obtain ⟨m, fits, top, index⟩ :=
      roundIndex_of_distant_difference hs (show i < gridOf s by omega) (Nat.two_pow_pos _) nonzero
        small
    have exponent : Kh / gridOf s + n = Kg / gridOf s - 1 := by omega
    rw [addOrdered_eq_pack_of_div hs fits (sum ▸ top), index, exponent, ← last]
    rw [place, Nat.cast_zero, add_zero] at division
    rw [sub_mul, one_mul, Int.sub_add_cancel, division]

/-- A distant operand of either sign is absorbed (44_additive R82 (g)). -/
theorem addPacked_absorbs (hs : Inv s) (hg : isFinite g) (hh : isFinite h)
    (distant : expOf h + (s.cfg.f.toNat + 2) * gridOf s ≤ expOf g) :
    addPacked s.cfg s.lut g h = g := by
  have order : expOf h ≤ expOf g := by
    have : (0 : ℤ) ≤ (s.cfg.f.toNat + 2) * gridOf s := by positivity
    omega
  rw [addPacked_of_expOf_le _ _ hg hh order]
  conv_rhs => rw [← pack_signOf_expOf hg]
  obtain agree | differ := eq_or_ne (signOf g) (signOf h)
  · exact addOrdered_absorbs_of_eq hs agree distant
  · exact addOrdered_absorbs_of_ne hs differ distant

/-- Settles O48: SUB adds the negation, which is as distant. -/
theorem distantOperandIsAbsorbed : Obligations.DistantOperandIsAbsorbed := by
  intro s g h hs hg hh distant
  have absorbed := addPacked_absorbs hs hg hh distant
  refine ⟨exec_add_of_eq s absorbed, exec_add_of_eq s ((addPacked_comm ..).trans absorbed),
    exec_sub_of_eq s (addPacked_absorbs hs hg (isFinite_negPacked hh) ?_)⟩
  rwa [expOf_negPacked hh]

end Sys2Proof.Proofs
end

section
/-! The ordering key (45_compare R85), and what a comparison answers (R86 to R90). -/

open Sys2Proof Sys2Proof.Machine

namespace Sys2Proof.Proofs

/-- A negative pattern is `2^15` above its magnitude field (45_compare R85). -/
theorem orderKey_eq_key (x : Packed) : orderKey x = key x := by
  have bound := x.isLt
  rw [key, signOf_eq, magnitudeOf_toNat]
  by_cases negative : 2 ^ 15 ≤ x.toNat
  · rw [orderKey, if_neg (not_lt.mpr negative), if_pos (decide_eq_true negative)]
    omega
  · rw [orderKey, if_pos (not_le.mp negative), if_neg (mt of_decide_eq_true negative)]
    omega

variable {a b : Packed}

theorem key_of_positive (positive : signOf a = false) : key a = expOf a + 16384 := by
  rw [key, positive, if_neg Bool.false_ne_true, expOf_eq, Int.sub_add_cancel]

theorem key_of_negative (negative : signOf a = true) : key a = -(expOf a + 16384) := by
  rw [key, negative, if_pos rfl, expOf_eq, Int.sub_add_cancel]

/-- NaR would be a second pattern of key 0: the other patterns have a key each (45_compare R85). -/
theorem key_inj (ha : a ≠ 0x8000) (hb : b ≠ 0x8000) : key a = key b ↔ a = b := by
  have nar : (0x8000 : Packed).toNat = 2 ^ 15 := rfl
  rw [← orderKey_eq_key, ← orderKey_eq_key, orderKey, orderKey, ← BitVec.toNat_inj]
  rw [ne_eq, ← BitVec.toNat_inj, nar] at ha hb
  have := a.isLt
  have := b.isLt
  omega

variable (s : State)

/-- A comparison of a NaR operand answers 0 (45_compare R86 to R90). -/
theorem next_respond_compareKeys_of_nar (rel : Int → Int → Bool) (nar : a = 0x8000 ∨ b = 0x8000) :
    (.next (respond (truthResult (compareKeys rel a b)) s) : Host.Outcome State Fault Refusal) =
      .next (answered s 0) := by
  have unordered : compareKeys rel a b = false := if_pos nar
  rw [respond_eq_answer, answer_eq, unordered, truthResult, if_neg Bool.false_ne_true]

/-- Every other comparison answers the truth value of its relation of the keys (45_compare R86 to
R90). -/
theorem next_respond_compareKeys (rel : Int → Int → Prop) [∀ x y, Decidable (rel x y)]
    (ha : a ≠ 0x8000) (hb : b ≠ 0x8000) :
    (.next (respond (truthResult (compareKeys (fun x y => decide (rel x y)) a b)) s) :
        Host.Outcome State Fault Refusal) =
      .next (answered s (if rel (key a) (key b) then 1 else 0)) := by
  have ordered : compareKeys (fun x y => decide (rel x y)) a b = decide (rel (key a) (key b)) :=
    if_neg (not_or.mpr ⟨ha, hb⟩)
  rw [respond_eq_answer, answer_eq, ordered, truthResult]
  simp only [decide_eq_true_eq]

theorem exec_cmplt_of_ne_nar (ha : a ≠ 0x8000) (hb : b ≠ 0x8000) :
    exec (.cmplt a b) s = .next (answered s (if key a < key b then 1 else 0)) :=
  (exec_cmplt s a b).trans (next_respond_compareKeys s (· < ·) ha hb)

/-- Equal keys are equal patterns (45_compare R86). -/
theorem exec_cmpeq_of_ne_nar (ha : a ≠ 0x8000) (hb : b ≠ 0x8000) :
    exec (.cmpeq a b) s = .next (answered s (if a = b then 1 else 0)) := by
  simp only [← key_inj ha hb]
  exact (exec_cmpeq s a b).trans (next_respond_compareKeys s (· = ·) ha hb)

/-- Settles O50: the words, the NaR operands, and the relation of each command. -/
theorem comparisonsOrderKeys : Obligations.ComparisonsOrderKeys := by
  intro s a b
  refine ⟨⟨wordB16_eq_wordOf .., wordB16_eq_wordOf .., wordB16_eq_wordOf .., wordB16_eq_wordOf ..,
    wordB16_eq_wordOf ..⟩, fun nar => ?_, fun ha hb => ?_⟩
  · have answer_zero := fun rel => next_respond_compareKeys_of_nar s rel nar
    exact ⟨answer_zero _, answer_zero _, answer_zero _, answer_zero _, answer_zero _⟩
  · simp only [orderKey_eq_key]
    exact ⟨exec_cmpeq_of_ne_nar s ha hb, (key_inj ha hb).symm,
      (exec_cmple s a b).trans (next_respond_compareKeys s (· ≤ ·) ha hb),
      exec_cmplt_of_ne_nar s ha hb,
      (exec_cmpgt s a b).trans (next_respond_compareKeys s (· > ·) ha hb),
      (exec_cmpge s a b).trans (next_respond_compareKeys s (· ≥ ·) ha hb)⟩

end Sys2Proof.Proofs
end

section
/-! The real number of a pattern as a strictly increasing function of its key (45_compare R85,
R91 (d)). -/

open Sys2Proof Sys2Proof.Machine

namespace Sys2Proof.Proofs

/-- The real number a key stands for, for every integer: the sign, and the magnitude as a number of
grid units above the least exponent (45_compare R85). It is 0 at the key of Zero. -/
noncomputable def keyValue (f : Nat) (k : Int) : ℝ := k.sign * gridValue f false (|k| - 16384)

variable {f : Nat}

theorem gridValue_false (K : Int) : gridValue f false K = (2 : ℝ) ^ ((K : ℝ) / 2 ^ f) := by
  rw [gridValue, signFactor, if_neg Bool.false_ne_true, one_mul]

theorem gridValue_pos (K : Int) : 0 < gridValue f false K := by
  rw [gridValue_false]
  exact Real.rpow_pos_of_pos two_pos _

theorem gridValue_strictMono : StrictMono (gridValue f false) := by
  intro K L less
  rw [gridValue_false, gridValue_false, Real.rpow_lt_rpow_left_iff one_lt_two]
  exact div_lt_div_of_pos_right (Int.cast_lt.mpr less) (by positivity)

theorem keyValue_zero : keyValue f 0 = 0 := by
  rw [keyValue, Int.sign_zero, Int.cast_zero, zero_mul]

theorem keyValue_neg (k : Int) : keyValue f (-k) = -keyValue f k := by
  rw [keyValue, Int.sign_neg, abs_neg, Int.cast_neg, neg_mul, keyValue]

theorem keyValue_of_pos {k : Int} (pos : 0 < k) : keyValue f k = gridValue f false (k - 16384) := by
  rw [keyValue, Int.sign_eq_one_of_pos pos, Int.cast_one, one_mul, abs_of_pos pos]

/-- Odd, and increasing on the keys of Zero and the positive patterns (45_compare R85). -/
theorem keyValue_strictMono : StrictMono (keyValue f) := by
  refine strictMono_of_odd_strictMonoOn_nonneg keyValue_neg fun j hj k _ less => ?_
  have pos : 0 < k := lt_of_le_of_lt hj less
  obtain zero | positive := (Set.mem_Ici.mp hj).eq_or_lt
  · rw [← zero, keyValue_zero, keyValue_of_pos pos]
    exact gridValue_pos _
  · rw [keyValue_of_pos positive, keyValue_of_pos pos]
    exact gridValue_strictMono (Int.sub_lt_sub_right less _)

variable {a b : Packed}

theorem realValue_eq_keyValue (ha : a ≠ 0x8000) : realValue f a = keyValue f (key a) := by
  by_cases zero : a = 0x0000
  · have center : key 0x0000 = 0 := rfl
    rw [zero, center, keyValue_zero, realValue, if_pos rfl]
  · have fin : isFinite a := ⟨zero, ha⟩
    obtain ⟨low, -⟩ := expOf_mem_of_isFinite fin
    have magnitude : keyValue f (expOf a + 16384) = gridValue f false (expOf a) := by
      rw [keyValue_of_pos (by omega), Int.add_sub_cancel]
    rw [realValue_of_isFinite fin]
    cases sign : signOf a with
    | false => rw [key_of_positive sign, magnitude]
    | true => rw [key_of_negative sign, keyValue_neg, magnitude, ← gridValue_not, Bool.not_false]

/-- For every f, the order of the keys is the order of the real numbers (45_compare R91 (d)). -/
theorem realValue_lt_iff (ha : a ≠ 0x8000) (hb : b ≠ 0x8000) :
    realValue f a < realValue f b ↔ key a < key b := by
  rw [realValue_eq_keyValue ha, realValue_eq_keyValue hb, keyValue_strictMono.lt_iff_lt]

/-- There is one pattern per real number (45_compare R85). -/
theorem realValue_inj (ha : a ≠ 0x8000) (hb : b ≠ 0x8000) :
    realValue f a = realValue f b ↔ a = b := by
  rw [realValue_eq_keyValue ha, realValue_eq_keyValue hb, keyValue_strictMono.injective.eq_iff,
    key_inj ha hb]

/-- Settles O51: CMPLT compares the keys and CMPEQ the patterns, as the real numbers are ordered. -/
theorem comparisonsFollowTheRealOrder : Obligations.ComparisonsFollowTheRealOrder := by
  intro s a b ha hb
  rw [exec_cmplt_of_ne_nar s ha hb, exec_cmpeq_of_ne_nar s ha hb, ← not_lt, ne_eq,
    realValue_lt_iff ha hb, realValue_inj ha hb]
  exact ⟨fun less => by rw [if_pos less], fun notLess => by rw [if_neg notLess],
    fun equal => by rw [if_pos equal], fun differ => by rw [if_neg differ]⟩

end Sys2Proof.Proofs
end

section
/-! `RneShift` (46_conversion R92): a shift to the right is a quotient rounded to nearest, ties to even. -/

open Sys2Proof.Machine

namespace Sys2Proof.Proofs

variable {N d : Nat}

/-- The two ways to round: down by the remainder if it is at most half a unit, else up; of a tie the
result is even (46_conversion R92). -/
theorem nearestEven_cases (N : Nat) (pos : 0 < d) :
    ((nearestEven N d * d + N % d = N ∧ 2 * (N % d) ≤ d) ∨
      (nearestEven N d * d + N % d = N + d ∧ d ≤ 2 * (N % d) ∧ N % d < d)) ∧
    (2 * (N % d) = d → nearestEven N d % 2 = 0) := by
  have division := Nat.div_add_mod' N d
  have remainder := Nat.mod_lt N pos
  rw [nearestEven]
  split
  next up =>
    rw [add_mul, one_mul]
    exact ⟨.inr (by omega), by omega⟩
  next down => exact ⟨.inl (by omega), by omega⟩

/-- Rounding up overshoots by at most half a unit. -/
theorem two_mul_nearestEven_mul_le (pos : 0 < d) : 2 * (nearestEven N d * d) ≤ 2 * N + d := by
  obtain ⟨⟨_, _⟩ | ⟨_, _, _⟩, -⟩ := nearestEven_cases N pos <;> omega

/-- Rounding down falls short by at most half a unit. -/
theorem two_mul_le_nearestEven_mul (pos : 0 < d) : 2 * N ≤ 2 * (nearestEven N d * d) + d := by
  obtain ⟨⟨_, _⟩ | ⟨_, _, _⟩, -⟩ := nearestEven_cases N pos <;> omega

/-- At distance half a unit, on either side, the remainder is a tie. -/
theorem even_nearestEven_of_tie (pos : 0 < d)
    (tie : 2 * ((nearestEven N d : Int) * d - N).natAbs = d) : nearestEven N d % 2 = 0 := by
  obtain ⟨sides, even⟩ := nearestEven_cases N pos
  rw [← Nat.cast_mul] at tie
  exact even (by omega)

theorem div_le_nearestEven (N d : Nat) : N / d ≤ nearestEven N d := by
  rw [nearestEven]
  split <;> omega

theorem nearestEven_le_div_add_one (N d : Nat) : nearestEven N d ≤ N / d + 1 := by
  rw [nearestEven]
  split <;> omega

theorem nearestEven_one (N : Nat) : nearestEven N 1 = N := by
  rw [nearestEven, if_neg (by omega), Nat.div_one]

/-- Less than half a unit rounds to 0. -/
theorem nearestEven_of_two_mul_lt (small : 2 * N < d) : nearestEven N d = 0 := by
  have remainder : N % d = N := Nat.mod_eq_of_lt (by omega)
  have quotient : N / d = 0 := Nat.div_eq_of_lt (by omega)
  rw [nearestEven, remainder, quotient, if_neg (by omega)]

/-- The half of the rule is half of the divisor (46_conversion R92). -/
theorem rneShift_natCast (N n : Nat) : rneShift N n = nearestEven N (2 ^ n) := by
  cases n with
  | zero =>
    rw [rneShift_nonpos N (by simp), pow_zero, nearestEven_one]
    simp
  | succ n =>
    rw [rneShift_pos N (n + 1) n.succ_pos, Nat.add_sub_cancel, nearestEven]
    have half : 2 ^ (n + 1) = 2 * 2 ^ n := Nat.pow_succ'
    congr 1
    rw [eq_iff_iff]
    omega

theorem rneShift_of_nonneg (N : Nat) {r : Int} (nonneg : 0 ≤ r) :
    rneShift N r = nearestEven N (2 ^ r.toNat) := by
  rw [← rneShift_natCast, Int.toNat_of_nonneg nonneg]

/-- Settles O42: the two bounds of the quotient rounded to nearest, and its values below and just above
half a unit. -/
theorem rneShiftRoundsToNearestEven : Obligations.RneShiftRoundsToNearestEven := by
  intro N n
  have pos := Nat.two_pow_pos n
  rw [rneShift_natCast]
  refine ⟨?_, rfl, ?_, fun tie _ => even_nearestEven_of_tie pos (by exact_mod_cast tie),
    fun narrow far => ?_, fun narrow above => ?_, ?_⟩
  · rw [rneShift_nonpos N (by omega), neg_neg, Int.toNat_natCast]
  · have upper := two_mul_nearestEven_mul_le (N := N) pos
    have lower := two_mul_le_nearestEven_mul (N := N) pos
    have cast : (nearestEven N (2 ^ n) : Int) * 2 ^ n = (nearestEven N (2 ^ n) * 2 ^ n : ℕ) := by
      push_cast
      rfl
    rw [cast]
    omega
  · have wide : 2 ^ 34 ≤ 2 ^ n := Nat.pow_le_pow_right two_pos far
    exact nearestEven_of_two_mul_lt (by omega)
  · rw [show (33 : Int) = (33 : ℕ) from rfl, rneShift_natCast, nearestEven, if_pos (by omega)]
    omega
  · rw [show (33 : Int) = (33 : ℕ) from rfl, rneShift_natCast, nearestEven, if_neg (by omega)]
    omega

end Sys2Proof.Proofs
end

section
/-! The way from the linear side into the format (46_conversion R93, R95): FROMF and FROMI hand the
encoder an exact 33-bit significand, which is the magnitude normalised at its leading bit. -/

open Sys2Proof Sys2Proof.Machine

namespace Sys2Proof.Proofs

variable {s : State} {sign : Bool} {S p : Nat} {x n : Word32}

/-- `EncodeLin` reads the thresholds of a state with the invariant as they stand (42_codec R67). -/
theorem encodeLin_eq_pack (hs : Inv s) (e : Int) (low : 2 ^ 32 ≤ S) (high : S < 2 ^ 33) :
    encodeLin s.cfg s.lut sign e S = pack sign (e * gridOf s + roundIndex s (S - 2 ^ 32)) := by
  obtain ⟨lookup, -⟩ := log2LookupIsTheLeastIndex s hs (S - 2 ^ 32) (by omega)
  rw [← lookup]
  rfl

theorem two_pow_le_mul_of_leading_bit (low : 2 ^ p ≤ S) (narrow : p ≤ 32) :
    2 ^ 32 ≤ S * 2 ^ (32 - p) := by
  calc 2 ^ 32 = 2 ^ p * 2 ^ (32 - p) := by rw [← pow_add, Nat.add_sub_cancel' narrow]
    _ ≤ S * 2 ^ (32 - p) := Nat.mul_le_mul_right _ low

/-- A magnitude of at most 33 bits is normalised without loss, from the place `p` of its leading bit. -/
theorem encodeLin_shiftLeft_log2 (hs : Inv s) (e : Int) (low : 2 ^ p ≤ S) (high : S < 2 ^ (p + 1))
    (narrow : p ≤ 32) :
    encodeLin s.cfg s.lut sign e (S <<< (32 - Nat.log2 S)) =
      pack sign (e * gridOf s + roundIndex s (S * 2 ^ (32 - p) - 2 ^ 32)) := by
  have nonzero : S ≠ 0 := ((Nat.two_pow_pos p).trans_le low).ne'
  have place : Nat.log2 S = p := (Nat.log2_eq_iff nonzero).mpr ⟨low, high⟩
  have fits : S * 2 ^ (32 - p) < 2 ^ 33 := by
    calc S * 2 ^ (32 - p) < 2 ^ (p + 1) * 2 ^ (32 - p) :=
          Nat.mul_lt_mul_of_pos_right high (Nat.two_pow_pos _)
      _ = 2 ^ 33 := by rw [← pow_add]; congr 1; omega
  rw [place, Nat.shiftLeft_eq,
    encodeLin_eq_pack hs e (two_pow_le_mul_of_leading_bit low narrow) fits]

theorem floatFraction_lt (x : Word32) : floatFraction x < 2 ^ 23 := by
  rw [floatFraction_eq]
  omega

theorem toNat_floatSign (x : Word32) : (floatSign x).toNat = x.toNat / 2 ^ 31 := by
  have := x.isLt
  rw [floatSign_eq]
  by_cases negative : 2 ^ 31 ≤ x.toNat <;> simp only [negative, decide_true, decide_false,
    Bool.toNat_true, Bool.toNat_false] <;> omega

theorem fromFloat_of_notReal (s : State) (exponent : floatExponent x = 255) :
    fromFloat s.cfg s.lut x = 0x8000 := by
  rw [fromFloat, readFloat_eq, if_pos exponent]
  rfl

theorem fromFloat_of_zero (s : State) (exponent : floatExponent x = 0)
    (fraction : floatFraction x = 0) : fromFloat s.cfg s.lut x = 0x0000 := by
  rw [fromFloat, readFloat_eq, if_neg (by omega), if_pos ⟨exponent, fraction⟩]
  rfl

/-- A subnormal number `fr * 2^(-149)` is read as its fraction normalised (46_conversion R93). -/
theorem fromFloat_of_subnormal (hs : Inv s) (exponent : floatExponent x = 0)
    (low : 2 ^ p ≤ floatFraction x) (high : floatFraction x < 2 ^ (p + 1)) :
    fromFloat s.cfg s.lut x = pack (floatSign x)
      ((p - 149) * gridOf s + roundIndex s (floatFraction x * 2 ^ (32 - p) - 2 ^ 32)) := by
  have nonzero : floatFraction x ≠ 0 := ((Nat.two_pow_pos p).trans_le low).ne'
  have place : Nat.log2 (floatFraction x) = p := (Nat.log2_eq_iff nonzero).mpr ⟨low, high⟩
  have narrow : p < 23 :=
    (Nat.pow_lt_pow_iff_right one_lt_two).mp (low.trans_lt (floatFraction_lt x))
  rw [fromFloat, readFloat_eq, if_neg (by omega), if_neg (by omega), if_pos exponent,
    ← encodeLin_shiftLeft_log2 hs _ low high (by omega), place]

/-- A normal number has the hidden bit at the place of `2^32` (46_conversion R93). -/
theorem fromFloat_of_normal (hs : Inv s) (notZero : floatExponent x ≠ 0)
    (isReal : floatExponent x ≠ 255) :
    fromFloat s.cfg s.lut x = pack (floatSign x)
      ((floatExponent x - 127) * gridOf s + roundIndex s (floatFraction x * 2 ^ 9)) := by
  have fraction := floatFraction_lt x
  have shifted : (2 ^ 23 + floatFraction x) <<< 9 = 2 ^ 32 + floatFraction x * 2 ^ 9 := by
    rw [Nat.shiftLeft_eq]
    omega
  rw [fromFloat, readFloat_eq, if_neg isReal, if_neg (by omega), if_neg notZero]
  simp only [shifted]
  rw [encodeLin_eq_pack hs _ (by omega) (by omega), Nat.add_sub_cancel_left]

theorem exec_fromf_of_eq (s : State) {r : Packed} (h : fromFloat s.cfg s.lut x = r) :
    exec (.fromf x) s = .next (answered s (inR r)) :=
  (exec_fromf s x).trans (next_respond_packedResult s h)

/-- Settles O52, by the class of the word. -/
theorem fromfEncodesExactly : Obligations.FromfEncodesExactly := by
  rintro s x hs sign E8 fr rfl rfl rfl
  rw [← floatExponent_eq, ← floatFraction_eq, ← toNat_floatSign]
  refine ⟨wordU32_eq_wordOf .., fun exponent => ?_, fun exponent fraction => ?_,
    fun exponent p low high => ?_, fun notZero isReal => ?_⟩
  · exact exec_fromf_of_eq s (fromFloat_of_notReal s exponent)
  · exact exec_fromf_of_eq s (fromFloat_of_zero s exponent fraction)
  · rw [exec_fromf_of_eq s (fromFloat_of_subnormal hs exponent low high), inR_pack]
  · rw [exec_fromf_of_eq s (fromFloat_of_normal hs notZero isReal), inR_pack]

theorem fromInt_zero (s : State) : fromInt s.cfg s.lut 0 = 0x0000 := rfl

/-- The magnitude of an integer, `2^31` included, has at most 32 bits (46_conversion R95). -/
theorem fromInt_of_leading_bit (hs : Inv s) (low : 2 ^ p ≤ n.toInt.natAbs)
    (high : n.toInt.natAbs < 2 ^ (p + 1)) :
    fromInt s.cfg s.lut n = pack (decide (n.toInt < 0))
      (p * gridOf s + roundIndex s (n.toInt.natAbs * 2 ^ (32 - p) - 2 ^ 32)) := by
  have positive : 0 < n.toInt.natAbs := (Nat.two_pow_pos p).trans_le low
  have nonzero : n ≠ 0 := by
    rintro rfl
    simp at positive
  have place : Nat.log2 n.toInt.natAbs = p := (Nat.log2_eq_iff positive.ne').mpr ⟨low, high⟩
  have bound : n.toInt.natAbs < 2 ^ 32 := by
    have := n.toInt_lt
    have := n.le_toInt
    omega
  have narrow : p < 32 := (Nat.pow_lt_pow_iff_right one_lt_two).mp (low.trans_lt bound)
  rw [fromInt, if_neg nonzero, intSign_eq, intMagnitude_eq,
    ← encodeLin_shiftLeft_log2 hs _ low high narrow.le, place]

theorem exec_fromi_of_eq (s : State) {r : Packed} (h : fromInt s.cfg s.lut n = r) :
    exec (.fromi n) s = .next (answered s (inR r)) :=
  (exec_fromi s n).trans (next_respond_packedResult s h)

/-- Settles O54, from the sign and the leading bit of the magnitude. -/
theorem fromiEncodesExactly : Obligations.FromiEncodesExactly := by
  intro s n hs
  refine ⟨wordU32_eq_wordOf .., ?_, fun p low high => ?_⟩
  · rintro rfl
    exact exec_fromi_of_eq s (fromInt_zero s)
  · rw [exec_fromi_of_eq s (fromInt_of_leading_bit hs low high), inR_pack, Bool.toNat,
      Bool.cond_decide]

end Sys2Proof.Proofs
end

section
/-! The way from the format to the linear side (46_conversion R94, R96): the linear value of a Finite
pattern is rounded once, and no entry of the table is so near the next octave that it is reached. -/

open Sys2Proof Sys2Proof.Machine

namespace Sys2Proof.Proofs

variable {s : State} {a : Packed} {e : Int} {N i : Nat}

/-- The threshold above a grid fraction is far from it against the rounding to binary32: the step is at
least `1/(4F)` of the octave. -/
theorem tableE_add_lt_tableT (hs : Inv s) (hi : i < gridOf s) :
    tableE s i + 2 ^ 19 < tableT s i := by
  have gap := gridPart_lt_tableT_sub_tableE hs hi
  have small := gridOf_le hs
  refine Nat.lt_of_mul_lt_mul_left (a := 4 * gridOf s) ?_
  rw [mul_add]
  omega

/-- The threshold below a grid fraction is as far from it. -/
theorem tableT_add_le_tableE_succ (hs : Inv s) (hi : i < gridOf s) :
    tableT s i + 2 ^ 19 ≤ tableE s (i + 1) := by
  have gap := gridPart_le_tableE_sub_tableT hs hi
  have small := gridOf_le hs
  refine Nat.le_of_mul_le_mul_left (c := 4 * gridOf s) ?_ (Nat.mul_pos four_pos (gridOf_pos s))
  rw [mul_add]
  omega

/-- Every grid significand keeps away from the next octave, so that its rounding does not carry. -/
theorem gridSignificand_add_lt (hs : Inv s) (K : Int) : gridSignificand s K + 2 ^ 20 < 2 ^ 33 := by
  have hi := gridIndex_lt s K
  have above := tableE_add_lt_tableT hs hi
  have below := tableT_add_le_tableE_succ hs hi
  have last := tableE_le_tableE hs (Order.add_one_le_of_lt hi) le_rfl
  rw [tableE_gridOf] at last
  rw [gridSignificand]
  omega

/-- A Finite pattern lies in the octaves -128 to 127, and in the lowest two of them only under f = 7,
where an octave has fewest grid points (42_codec R62). -/
theorem octave_mem_of_isFinite (hs : Inv s) (ha : isFinite a) :
    -128 ≤ expOf a / gridOf s ∧ expOf a / gridOf s ≤ 127 ∧
      (expOf a / gridOf s < -126 → s.cfg.f = 7) := by
  obtain ⟨low, high⟩ := expOf_mem_of_isFinite ha
  have pos : (0 : ℤ) < gridOf s := by exact_mod_cast gridOf_pos s
  have atLeast := le_gridOf hs
  refine ⟨?_, ?_, fun lowest => ?_⟩
  · rw [Int.le_ediv_iff_mul_le pos]
    omega
  · rw [← Int.lt_add_one_iff, Int.ediv_lt_iff_lt_mul pos]
    omega
  · by_contra other
    have wider : 8 ≤ s.cfg.f.toNat := by
      have seven : s.cfg.f.toNat ≠ 7 := fun h => other (BitVec.eq_of_toNat_eq h)
      have := hs.1.1
      omega
    have finer : 2 ^ 8 ≤ gridOf s := Nat.pow_le_pow_right two_pos wider
    rw [Int.ediv_lt_iff_lt_mul pos] at lowest
    omega

/-- The significand of an octave rounded in units of `2^n` keeps its leading bit: no carry, because it
is away from the octave's end. -/
theorem nearestEven_mem_of_significand {n : Nat} (hn : n ≤ 11) (low : 2 ^ 32 ≤ N)
    (high : N + 2 ^ 20 < 2 ^ 33) :
    2 ^ (32 - n) ≤ nearestEven N (2 ^ n) ∧ nearestEven N (2 ^ n) < 2 ^ (33 - n) := by
  have pos := Nat.two_pow_pos n
  have small : 2 ^ n ≤ 2 ^ 11 := Nat.pow_le_pow_right two_pos hn
  have upper := two_mul_nearestEven_mul_le (N := N) pos
  have start : 2 ^ (32 - n) * 2 ^ n = 2 ^ 32 := by rw [← pow_add, Nat.sub_add_cancel (by omega)]
  have finish : 2 ^ (33 - n) * 2 ^ n = 2 ^ 33 := by rw [← pow_add, Nat.sub_add_cancel (by omega)]
  constructor
  · refine le_trans ?_ (div_le_nearestEven N (2 ^ n))
    rwa [Nat.le_div_iff_mul_le pos, start]
  · refine Nat.lt_of_mul_lt_mul_right (a := 2 ^ n) ?_
    omega

/-- TOF's encoder with the numbers of binary32 (46_conversion R94). -/
theorem floatOfLinear_eq (sign : Bool) (N : Nat) (q : Int) : floatOfLinear sign N q =
    if -126 ≤ q + 32 then
      if rneShift N (9 : ℕ) = 2 ^ 24 then floatNormal sign (q + 32 + 1) (2 ^ 23)
      else floatNormal sign (q + 32) (rneShift N (9 : ℕ))
    else floatWord sign (rneShift N (-149 - q) / 2 ^ 23) (rneShift N (-149 - q)) :=
  rfl

/-- A normal result neither carries nor overflows (46_conversion R94). -/
theorem floatOfLinear_of_normal (sign : Bool) (normal : -126 ≤ e) (finite : e ≤ 127)
    (low : 2 ^ 32 ≤ N) (high : N + 2 ^ 20 < 2 ^ 33) :
    floatOfLinear sign N (e - 32) = BitVec.ofNat 32 (sign.toNat * 2 ^ 31 +
      (e + 127).toNat * 2 ^ 23 + (nearestEven N (2 ^ 9) - 2 ^ 23)) := by
  obtain ⟨atLeast, noCarry⟩ := nearestEven_mem_of_significand (n := 9) (by norm_num) low high
  rw [floatOfLinear_eq, sub_add_cancel, rneShift_natCast, if_pos normal, if_neg noCarry.ne,
    floatNormal_eq sign normal finite noCarry atLeast]

/-- A subnormal result counts units of `2^(-149)` (46_conversion R94). -/
theorem floatOfLinear_of_subnormal (sign : Bool) (subnormal : e < -126) (high : N < 2 ^ 33) :
    floatOfLinear sign N (e - 32) =
      BitVec.ofNat 32 (sign.toNat * 2 ^ 31 + nearestEven N (2 ^ (-117 - e).toNat)) := by
  have units : -149 - (e - 32) = -117 - e := by omega
  have fits : nearestEven N (2 ^ (-117 - e).toNat) < 2 ^ 31 := by
    have rounded := nearestEven_le_div_add_one N (2 ^ (-117 - e).toNat)
    have divisor : 2 ^ 10 ≤ 2 ^ (-117 - e).toNat := Nat.pow_le_pow_right two_pos (by omega)
    have quotient : N / 2 ^ (-117 - e).toNat ≤ N / 2 ^ 10 :=
      Nat.div_le_div_left divisor (Nat.two_pow_pos 10)
    omega
  rw [floatOfLinear_eq, sub_add_cancel, if_neg (by omega), units, rneShift_of_nonneg N (by omega)]
  exact floatWord_subnormal sign fits

theorem toFloat_zero (s : State) : toFloat s.cfg s.lut 0x0000 = 0x00000000 := rfl

theorem toFloat_nar (s : State) : toFloat s.cfg s.lut 0x8000 = 0x7FC00000 := rfl

theorem toFloat_of_isFinite (hs : Inv s) (ha : isFinite a) : toFloat s.cfg s.lut a =
    floatOfLinear (signOf a) (gridSignificand s (expOf a)) (expOf a / gridOf s - 32) := by
  rw [toFloat, unpack_of_isFinite ha]
  simp only [linear_eq hs]
  rfl

theorem toFloat_of_normal (hs : Inv s) (ha : isFinite a) (normal : -126 ≤ expOf a / gridOf s) :
    toFloat s.cfg s.lut a = BitVec.ofNat 32 ((signOf a).toNat * 2 ^ 31 +
      (expOf a / gridOf s + 127).toNat * 2 ^ 23 +
      (nearestEven (gridSignificand s (expOf a)) (2 ^ 9) - 2 ^ 23)) := by
  obtain ⟨-, finite, -⟩ := octave_mem_of_isFinite hs ha
  rw [toFloat_of_isFinite hs ha, floatOfLinear_of_normal _ normal finite
    (two_pow_le_gridSignificand ..) (gridSignificand_add_lt hs _)]

theorem toFloat_of_subnormal (hs : Inv s) (ha : isFinite a)
    (subnormal : expOf a / gridOf s < -126) :
    toFloat s.cfg s.lut a = BitVec.ofNat 32 ((signOf a).toNat * 2 ^ 31 +
      nearestEven (gridSignificand s (expOf a)) (2 ^ (-117 - expOf a / gridOf s).toNat)) := by
  rw [toFloat_of_isFinite hs ha, floatOfLinear_of_subnormal _ subnormal (gridSignificand_lt hs _)]

theorem exec_tof_of_eq (s : State) {v : Word32} (h : toFloat s.cfg s.lut a = v) :
    exec (.tof a) s = .next (answered s v) := by
  rw [exec_tof, h, respond_eq_answer, answer_eq]

/-- Settles O53: the sentinels, and the two ranges of octaves. -/
theorem tofRoundsOnce : Obligations.TofRoundsOnce := by
  intro s a hs
  refine ⟨wordU16_eq_wordOf .., ?_, ?_, ?_⟩
  · rintro rfl
    exact exec_tof_of_eq s (toFloat_zero s)
  · rintro rfl
    exact exec_tof_of_eq s (toFloat_nar s)
  · rintro ha e N rfl rfl
    obtain ⟨low, high, lowest⟩ := octave_mem_of_isFinite hs ha
    rw [signNat_eq]
    refine ⟨fun normal => ⟨high, ?_, ?_⟩, fun subnormal => ⟨lowest subnormal, by omega, ?_⟩⟩
    · exact (nearestEven_mem_of_significand (n := 9) (by norm_num) (two_pow_le_gridSignificand ..)
        (gridSignificand_add_lt hs _)).2
    · exact exec_tof_of_eq s (toFloat_of_normal hs ha normal)
    · exact exec_tof_of_eq s (toFloat_of_subnormal hs ha subnormal)

theorem toInt_zero (s : State) : toInt s.cfg s.lut 0x0000 = 0x00000000 := rfl

theorem toInt_nar (s : State) : toInt s.cfg s.lut 0x8000 = 0x80000000 := rfl

/-- The linear value rounded to an integer: exact from the octave 32 on (46_conversion R92, R96). -/
theorem rneShift_linear (N : Nat) (e : Int) : rneShift N (-(e - 32)) =
    if 32 ≤ e then N * 2 ^ (e - 32).toNat else nearestEven N (2 ^ (32 - e).toNat) := by
  split
  next whole => rw [rneShift_nonpos N (by omega), neg_neg]
  next fractional => rw [rneShift_of_nonneg N (by omega), neg_sub]

theorem toInt_of_isFinite (hs : Inv s) (ha : isFinite a) {r : Nat}
    (rounded : rneShift (gridSignificand s (expOf a)) (-(expOf a / gridOf s - 32)) = r) :
    toInt s.cfg s.lut a = BitVec.ofInt 32
      (max (-2 ^ 31) (min (2 ^ 31 - 1) (if signOf a then -(r : Int) else r))) := by
  rw [toInt, unpack_of_isFinite ha]
  simp only [linear_eq hs]
  rw [intOfLinear, clampInt_eq, ← gridSignificand, rounded]

theorem exec_toi_of_eq (s : State) {v : Word32} (h : toInt s.cfg s.lut a = v) :
    exec (.toi a) s = .next (answered s v) := by
  rw [exec_toi, h, respond_eq_answer, answer_eq]

theorem signNat_eq_one_iff (x : Packed) : signNat x = 1 ↔ signOf x = true := by
  rw [signNat_eq, Bool.toNat_eq_one]

/-- Settles O55: the sentinels, and the rounded magnitude with its sign, clamped. -/
theorem toiRoundsAndSaturates : Obligations.ToiRoundsAndSaturates := by
  intro s a hs
  refine ⟨wordU16_eq_wordOf .., ?_, ?_, ?_⟩
  · rintro rfl
    exact exec_toi_of_eq s (toInt_zero s)
  · rintro rfl
    exact exec_toi_of_eq s (toInt_nar s)
  · rintro ha e N r rfl rfl rfl
    simp only [signNat_eq_one_iff]
    exact exec_toi_of_eq s (toInt_of_isFinite hs ha (rneShift_linear ..))

end Sys2Proof.Proofs
end

section
/-! The round trip (46_conversion R97): the one rounding of TOF moves a linear value by less than the
distance to its thresholds, so FROMF finds the same grid point again. -/

open Sys2Proof Sys2Proof.Machine

namespace Sys2Proof.Proofs

variable {s : State} {a : Packed} {i m d : Nat}

/-- A fraction near a grid fraction has its index: the thresholds on both sides are further away. -/
theorem roundIndex_of_near_tableE (hs : Inv s) (hi : i < gridOf s) (low : tableE s i ≤ m + 2 ^ 19)
    (high : m ≤ tableE s i + 2 ^ 19) : roundIndex s m = i := by
  obtain above | below := le_or_gt (tableE s i) m
  · have threshold := tableE_add_lt_tableT hs hi
    exact roundIndex_eq_of_tableE_le hs hi above (by omega)
  · cases i with
    | zero =>
      rw [tableE_zero hs] at below
      exact absurd below (Nat.not_lt_zero m)
    | succ i =>
      have threshold := tableT_add_le_tableE_succ hs (Nat.lt_of_succ_lt hi)
      exact roundIndex_eq_succ_of_tableT_le hs (Nat.lt_of_succ_lt hi) (by omega) below.le

/-- A grid significand rounded in units of at most `2^11`, and scaled back, has its index again. -/
theorem roundIndex_of_nearestEven (hs : Inv s) (K : Int) (pos : 0 < d) (small : d ≤ 2 ^ 11)
    (top : nearestEven (gridSignificand s K) d * d = 2 ^ 32 + m) :
    roundIndex s m = (K % gridOf s).toNat := by
  have upper := two_mul_nearestEven_mul_le (N := gridSignificand s K) pos
  have lower := two_mul_le_nearestEven_mul (N := gridSignificand s K) pos
  rw [top, gridSignificand] at upper lower
  exact roundIndex_of_near_tableE hs (gridIndex_lt s K) (by omega) (by omega)

/-- A sign and the octave and grid index of a pattern pack to the pattern. -/
theorem pack_octave_gridIndex (ha : isFinite a) :
    pack (signOf a) (expOf a / gridOf s * gridOf s + (expOf a % gridOf s).toNat) = a := by
  rw [octave_mul_add_gridIndex, pack_signOf_expOf ha]

/-- The fields of a word put together from three that fit their widths. -/
theorem float_fields_ofNat (sign : Bool) {E8 fr : Nat} (hE : E8 < 2 ^ 8) (hf : fr < 2 ^ 23) :
    floatSign (BitVec.ofNat 32 (sign.toNat * 2 ^ 31 + E8 * 2 ^ 23 + fr)) = sign ∧
    floatExponent (BitVec.ofNat 32 (sign.toNat * 2 ^ 31 + E8 * 2 ^ 23 + fr)) = E8 ∧
    floatFraction (BitVec.ofNat 32 (sign.toNat * 2 ^ 31 + E8 * 2 ^ 23 + fr)) = fr := by
  have bit := sign.toNat_lt
  have value : (BitVec.ofNat 32 (sign.toNat * 2 ^ 31 + E8 * 2 ^ 23 + fr)).toNat =
      sign.toNat * 2 ^ 31 + E8 * 2 ^ 23 + fr := by
    rw [BitVec.toNat_ofNat, Nat.mod_eq_of_lt (by omega)]
  rw [floatSign_eq, floatExponent_eq, floatFraction_eq, value]
  refine ⟨?_, by omega, by omega⟩
  cases sign
  · rw [Bool.toNat_false, decide_eq_false (by omega)]
  · rw [Bool.toNat_true, decide_eq_true (by omega)]

theorem fromFloat_toFloat_of_normal (hs : Inv s) (ha : isFinite a)
    (normal : -126 ≤ expOf a / gridOf s) : fromFloat s.cfg s.lut (toFloat s.cfg s.lut a) = a := by
  obtain ⟨-, finite, -⟩ := octave_mem_of_isFinite hs ha
  obtain ⟨low, high⟩ := nearestEven_mem_of_significand (n := 9) (by norm_num)
    (two_pow_le_gridSignificand s (expOf a)) (gridSignificand_add_lt hs _)
  obtain ⟨sign, exponent, fraction⟩ := float_fields_ofNat (signOf a)
    (E8 := (expOf a / gridOf s + 127).toNat)
    (fr := nearestEven (gridSignificand s (expOf a)) (2 ^ 9) - 2 ^ 23) (by omega) (by omega)
  rw [toFloat_of_normal hs ha normal, fromFloat_of_normal hs (by omega) (by omega), sign, exponent,
    fraction, roundIndex_of_nearestEven hs (expOf a) (d := 2 ^ 9) (by norm_num) (by norm_num)
      (by omega), Int.toNat_of_nonneg (by omega), add_sub_cancel_right, pack_octave_gridIndex ha]

/-- The significand of an octave in units of `2^n` has its leading bit at the place `p = 32 - n`. -/
theorem fromFloat_toFloat_of_subnormal (hs : Inv s) (ha : isFinite a)
    (subnormal : expOf a / gridOf s < -126) :
    fromFloat s.cfg s.lut (toFloat s.cfg s.lut a) = a := by
  obtain ⟨lowest, -, -⟩ := octave_mem_of_isFinite hs ha
  have word := toFloat_of_subnormal hs ha subnormal
  generalize units : (-117 - expOf a / gridOf s).toNat = n at word
  have octave : ((32 - n : ℕ) : ℤ) - 149 = expOf a / gridOf s := by omega
  have undo : 32 - (32 - n) = n := by omega
  obtain ⟨low, high⟩ := nearestEven_mem_of_significand (n := n) (by omega)
    (two_pow_le_gridSignificand s (expOf a)) (gridSignificand_add_lt hs _)
  have leading := two_pow_le_mul_of_leading_bit low (Nat.sub_le 32 n)
  rw [undo] at leading
  have fits : 2 ^ (33 - n) ≤ 2 ^ 23 := Nat.pow_le_pow_right two_pos (by omega)
  obtain ⟨sign, exponent, fraction⟩ := float_fields_ofNat (signOf a) (E8 := 0) (by norm_num)
    (high.trans_le fits)
  rw [zero_mul, add_zero, ← word] at sign exponent fraction
  rw [← fraction] at low high
  rw [show 33 - n = 32 - n + 1 by omega] at high
  rw [fromFloat_of_subnormal hs exponent low high, sign, fraction, octave, undo,
    roundIndex_of_nearestEven hs (expOf a) (d := 2 ^ n) (Nat.two_pow_pos n)
      (Nat.pow_le_pow_right two_pos (by omega)) (Nat.add_sub_cancel' leading).symm,
    pack_octave_gridIndex ha]

/-- NaR and Zero have words of their own, and a Finite pattern that of its rounded linear value. -/
theorem fromFloat_toFloat (hs : Inv s) (a : Packed) :
    fromFloat s.cfg s.lut (toFloat s.cfg s.lut a) = a := by
  obtain rfl | rfl | ha := eq_zero_or_eq_nar_or_isFinite a
  · rw [toFloat_zero]
    exact fromFloat_of_zero s (by decide) (by decide)
  · rw [toFloat_nar]
    exact fromFloat_of_notReal s (by decide)
  · obtain normal | subnormal := le_or_gt (-126) (expOf a / gridOf s)
    · exact fromFloat_toFloat_of_normal hs ha normal
    · exact fromFloat_toFloat_of_subnormal hs ha subnormal

/-- Settles O56, by the word that TOF answers with. -/
theorem floatRoundTrip : Obligations.FloatRoundTrip := by
  intro s a hs
  exact ⟨_, exec_tof_of_eq s rfl, exec_fromf_of_eq s (fromFloat_toFloat hs a)⟩

end Sys2Proof.Proofs
end

section
/-! The words that are no command (60_exceptions R105): `illegalWord` says of a word's numbers that no row
of the opcode table admits it, which is that the decoder refuses it. -/

open Sys2Proof Sys2Proof.Machine

namespace Sys2Proof.Proofs

/-- The opcodes of the table, as numbers, whose format is among those that `p` names. -/
def opcodesOf (p : Format → Bool) : List Nat :=
  (opcodeTable.filter fun r => p r.format).map fun r => r.op.toNat

/-- The formats in which B must be zero (30_encoding R32). -/
def needsZeroB (f : Format) : Bool := f ≠ .b16

/-- The formats that list A[31:16] itself as must-be-zero (30_encoding R32). -/
def needsZeroAHigh (f : Format) : Bool := f = .u16 ∨ f = .b16

/-- The table has one row for an opcode (30_encoding R31). -/
theorem row_eq_of_op_eq : ∀ r ∈ opcodeTable, ∀ r' ∈ opcodeTable, r.op = r'.op → r = r' := by decide

theorem mem_opcodesOf {r : Row} (mem : r ∈ opcodeTable) (p : Format → Bool) :
    r.op.toNat ∈ opcodesOf p ↔ p r.format = true := by
  rw [opcodesOf, List.mem_map]
  constructor
  · rintro ⟨r', mem', op⟩
    obtain ⟨row', holds⟩ := List.mem_filter.mp mem'
    rwa [row_eq_of_op_eq r mem r' row' (BitVec.eq_of_toNat_eq op.symm)]
  · intro holds
    exact ⟨r, List.mem_filter.mpr ⟨mem, holds⟩, rfl⟩

section
/-! The fields of a word as numbers (30_encoding R30). -/

variable (c : Word64)

theorem fieldOp_toNat : (fieldOp c).toNat = c.toNat / 2 ^ 56 := by
  rw [fieldOp, BitVec.extractLsb'_toNat, Nat.shiftRight_eq_div_pow]
  omega

theorem fieldRsv_toNat : (fieldRsv c).toNat = c.toNat / 2 ^ 48 % 2 ^ 8 := by
  rw [fieldRsv, BitVec.extractLsb'_toNat, Nat.shiftRight_eq_div_pow]

theorem fieldB_toNat : (fieldB c).toNat = c.toNat / 2 ^ 32 % 2 ^ 16 := by
  rw [fieldB, BitVec.extractLsb'_toNat, Nat.shiftRight_eq_div_pow]

theorem fieldA_toNat : (fieldA c).toNat = c.toNat % 2 ^ 32 := by
  rw [fieldA, BitVec.extractLsb'_toNat, Nat.shiftRight_zero]

theorem fieldAHigh_toNat : (fieldAHigh c).toNat = c.toNat / 2 ^ 16 % 2 ^ 16 := by
  rw [fieldAHigh, BitVec.extractLsb'_toNat, Nat.shiftRight_eq_div_pow]

end

/-- The five reasons of 60_exceptions R105, by the formats of the opcode table. -/
theorem illegalWord_iff_fields (c : Word64) :
    illegalWord c ↔
      (fieldOp c).toNat ∉ opcodesOf (fun _ => true) ∨ fieldRsv c ≠ 0 ∨
      ((fieldOp c).toNat ∈ opcodesOf needsZeroB ∧ fieldB c ≠ 0) ∨
      ((fieldOp c).toNat ∈ opcodesOf (· = .n) ∧ fieldA c ≠ 0) ∨
      ((fieldOp c).toNat ∈ opcodesOf needsZeroAHigh ∧ fieldAHigh c ≠ 0) := by
  have single : opcodesOf (· = .n) = [0x01] := by decide
  simp only [← BitVec.toNat_ne_iff_ne, fieldOp_toNat, fieldRsv_toNat, fieldB_toNat, fieldA_toNat,
    fieldAHigh_toNat, single, List.mem_singleton]
  exact Iff.rfl

theorem mask_keeps_fieldB {f : Format} (zero : needsZeroB f = true) :
    fieldB (formatMask f) = 0xFFFF := by
  cases f with
  | b16 => contradiction
  | n | u16 | u32 => rfl

theorem mask_keeps_fieldA {f : Format} (zero : f = .n) : fieldA (formatMask f) = 0xFFFFFFFF := by
  rw [zero]
  rfl

theorem mask_keeps_fieldAHigh {f : Format} (zero : needsZeroAHigh f = true) :
    fieldAHigh (formatMask f) = 0xFFFF := by
  cases f with
  | n | u32 => contradiction
  | u16 | b16 => rfl

/-- A row admits the words with its opcode whose must-be-zero fields are zero (30_encoding R32). -/
theorem rowAdmits_iff_fields (r : Row) (c : Word64) :
    rowAdmits r c = true ↔
      fieldOp c = r.op ∧ fieldRsv c = 0 ∧ (needsZeroB r.format = true → fieldB c = 0) ∧
      (r.format = .n → fieldA c = 0) ∧ (needsZeroAHigh r.format = true → fieldAHigh c = 0) := by
  obtain ⟨op, f⟩ := r
  constructor
  · intro admits
    exact ⟨fieldOp_of_rowAdmits admits, fieldRsv_of_rowAdmits admits,
      fun zero => fieldB_of_rowAdmits admits (mask_keeps_fieldB zero),
      fun zero => fieldA_of_rowAdmits admits (mask_keeps_fieldA zero),
      fun zero => fieldAHigh_of_rowAdmits admits (mask_keeps_fieldAHigh zero)⟩
  · rintro ⟨hop, hrsv, hb, ha, hhigh⟩
    cases f with
    | n =>
      rw [← wordN_of_fields hop hrsv (hb rfl) (ha rfl)]
      exact Laws.EncodeMatchesRow.wordN_row op
    | u16 =>
      rw [← wordU16_of_fields hop hrsv (hb rfl) (hhigh rfl)]
      exact Laws.EncodeMatchesRow.wordU16_row op _
    | u32 =>
      rw [← wordU32_of_fields hop hrsv (hb rfl)]
      exact Laws.EncodeMatchesRow.wordU32_row op _
    | b16 =>
      rw [← wordB16_of_fields hop hrsv (hhigh rfl)]
      exact Laws.EncodeMatchesRow.wordB16_row op _ _

/-- A word with the opcode of a row is illegal exactly when that row refuses it: a field that the row's
format lists as must-be-zero is not zero. -/
theorem illegalWord_iff_not_rowAdmits {r : Row} {c : Word64} (mem : r ∈ opcodeTable)
    (op : fieldOp c = r.op) : illegalWord c ↔ ¬ rowAdmits r c = true := by
  rw [illegalWord_iff_fields, rowAdmits_iff_fields, op]
  simp only [mem_opcodesOf mem, decide_eq_true_eq]
  tauto

theorem rowOf_mem (i : Instr) : rowOf i ∈ opcodeTable := by
  cases i <;> simp [rowOf, opcodeTable]

/-- The words that decode are those that are not illegal: they are the words admitted by a row. -/
theorem not_illegalWord_iff_decode (c : Word64) :
    ¬ illegalWord c ↔ ∃ i, decode c = .ok i := by
  constructor
  · intro legal
    have known : (fieldOp c).toNat ∈ opcodesOf (fun _ => true) := not_not.mp fun reserved =>
      legal ((illegalWord_iff_fields c).mpr (.inl reserved))
    obtain ⟨r, row, op⟩ := List.mem_map.mp known
    have mem : r ∈ opcodeTable := (List.mem_filter.mp row).1
    have admits : rowAdmits r c = true := not_not.mp fun refused =>
      legal ((illegalWord_iff_not_rowAdmits mem (BitVec.eq_of_toNat_eq op.symm)).mpr refused)
    obtain ⟨i, decoded, -⟩ := (rowAdmits_iff_decode mem).mp admits
    exact ⟨i, decoded⟩
  · rintro ⟨i, decoded⟩ illegal
    have admits : rowAdmits (rowOf i) c = true :=
      (rowAdmits_iff_decode (rowOf_mem i)).mpr ⟨i, decoded, rfl⟩
    exact (illegalWord_iff_not_rowAdmits (rowOf_mem i) (fieldOp_of_rowAdmits admits)).mp illegal admits

theorem illegalWord_iff_decode (c : Word64) : illegalWord c ↔ ∃ why, decode c = .error why := by
  rw [← not_iff_not, not_illegalWord_iff_decode]
  cases decode c with
  | error why => simp
  | ok i => simp

/-- Settles O6: the decoder refuses the illegal words and decodes every other, each to the command whose
word it is. -/
theorem illegalWordIsAnswered : Obligations.IllegalWordIsAnswered := by
  refine ⟨responseWord_fault .illegalCommand, fun s c rest head => ⟨fun illegal => ?_, fun legal => ?_⟩⟩
  · obtain ⟨why, refused⟩ := (illegalWord_iff_decode c).mp illegal
    exact step_of_illegal head refused
  · obtain ⟨i, decoded⟩ := (not_illegalWord_iff_decode c).mp legal
    exact ⟨i, encode_of_decode decoded, step_of_decoded head decoded⟩

end Sys2Proof.Proofs
end

section
/-! The four faults (60_exceptions R101): which command raises which, and what a step answers to a word
that does or does not fault. -/

open Sys2Proof Sys2Proof.Machine

namespace Sys2Proof.Proofs

/-- The rows of 60_exceptions R102 to R104: the commands that fault, each with its condition. -/
inductive Raises : Instr → CommandFault → Prop
  | invalidFormat {n : Word32} (outside : n.toNat < 7 ∨ 11 < n.toNat) :
      Raises (.setfrac n) .invalidFormat
  | invalidRoundingMode {m : Word32} (above : 1 < m.toNat) : Raises (.setrnd m) .invalidRoundingMode
  | negativeRadicand {a : Packed} (negative : 0x8001 ≤ a.toNat) : Raises (.sqrt a) .negativeRadicand

/-- SQRT has no root for the Finite patterns with bit 15 set, which are those above NaR's. -/
theorem sqrtPacked_eq_none_iff (mode : Config.RMode) (a : Packed) :
    sqrtPacked mode a = none ↔ 0x8001 ≤ a.toNat := by
  obtain rfl | rfl | ha := eq_zero_or_eq_nar_or_isFinite a
  · rw [sqrtPacked_zero]
    decide
  · rw [sqrtPacked_nar]
    decide
  · have notNaR : a.toNat ≠ 0x8000 := fun eq => ha.2 (BitVec.eq_of_toNat_eq eq)
    cases sign : signOf a with
    | true =>
      have negative : 2 ^ 15 ≤ a.toNat := by simpa [signOf_eq] using sign
      simp only [sqrtPacked_of_negative ha sign, true_iff]
      omega
    | false =>
      have positive : a.toNat < 2 ^ 15 := by simpa [signOf_eq] using sign
      simp only [sqrtPacked_of_positive ha sign, reduceCtorEq, false_iff]
      omega

theorem exec_of_raises {i : Instr} {x : CommandFault} (h : Raises i x) (s : State) :
    exec i s = .next (answer (.fault x) s) := by
  cases h with
  | invalidFormat outside => exact exec_setfrac_of_illegal s ((fracOperand_eq_none _).mpr outside)
  | invalidRoundingMode above => exact exec_setrnd_of_illegal s ((rmodeOperand_eq_none _).mpr above)
  | negativeRadicand negative =>
    exact exec_sqrt_of_negative s ((sqrtPacked_eq_none_iff _ _).mpr negative)

/-- The command is a successful SETFRAC (60_exceptions R108). -/
def GivesNotice (i : Instr) : Prop := ∃ n, i = .setfrac n ∧ 7 ≤ n.toNat ∧ n.toNat ≤ 11

/-- A command that raises no fault answers a result, whose NOTICE is that of a successful SETFRAC. -/
theorem exec_of_not_raises {i : Instr} (h : ∀ x, ¬ Raises i x) (s : State) :
    ∃ t v notice, exec i s = .next t ∧ t.responses = s.responses ++ [.result v notice] ∧
      (notice = true ↔ GivesNotice i) := by
  cases i with
  | setfrac n =>
    cases operand : fracOperand n with
    | none => exact absurd (.invalidFormat ((fracOperand_eq_none n).mp operand)) (h _)
    | some f =>
      have legal : 7 ≤ n.toNat ∧ n.toNat ≤ 11 := ((fracOperand_eq_some n f).mp operand).1
      exact ⟨_, _, _, exec_setfrac_of_legal s operand, rfl, fun _ => ⟨n, rfl, legal⟩, fun _ => rfl⟩
  | setrnd m =>
    cases operand : rmodeOperand m with
    | none => exact absurd (.invalidRoundingMode ((rmodeOperand_eq_none m).mp operand)) (h _)
    | some mode => exact ⟨_, _, _, exec_setrnd_of_legal s operand, rfl, by simp [GivesNotice]⟩
  | sqrt a =>
    cases root : sqrtPacked s.cfg.rmode a with
    | none => exact absurd (.negativeRadicand ((sqrtPacked_eq_none_iff _ a).mp root)) (h _)
    | some q => exact ⟨_, _, _, exec_sqrt_of_root s root, rfl, by simp [GivesNotice]⟩
  | _ => exact ⟨_, _, _, rfl, rfl, by simp [GivesNotice]⟩

/-- A command raises at most one fault. -/
theorem raises_unique {i : Instr} {x y : CommandFault} (hx : Raises i x) (hy : Raises i y) :
    x = y := by
  have same : Response.fault x = .fault y := answer_injective
    (Host.Outcome.next.inj ((exec_of_raises hx State.reset).symm.trans (exec_of_raises hy State.reset)))
  exact Response.fault.inj same

theorem not_givesNotice_of_raises {i : Instr} {x : CommandFault} (h : Raises i x) :
    ¬ GivesNotice i := by
  rintro ⟨n, rfl, low, high⟩
  cases h with
  | invalidFormat outside => omega

/-- The response of a command: the fault that it raises, or a result, whose NOTICE is that of a
successful SETFRAC. -/
theorem exec_response (i : Instr) (s : State) :
    ∃ t r, exec i s = .next t ∧ t.responses = s.responses ++ [r] ∧
      (∀ x, r = .fault x ↔ Raises i x) ∧ (responseNotice r = true ↔ GivesNotice i) := by
  by_cases faults : ∃ x, Raises i x
  · obtain ⟨x, raises⟩ := faults
    refine ⟨_, _, exec_of_raises raises s, rfl, fun y => ⟨?_, fun raised => ?_⟩, ?_⟩
    · rintro ⟨⟩
      exact raises
    · rw [raises_unique raises raised]
    · simp [responseNotice, not_givesNotice_of_raises raises]
  · have noFault : ∀ x, ¬ Raises i x := not_exists.mp faults
    obtain ⟨t, v, notice, next, responses, gives⟩ := exec_of_not_raises noFault s
    exact ⟨t, _, next, responses, fun x => by simp [noFault], gives⟩

/-- The fault with which a word is answered: that of the command it is, or IllegalCommand if it is none
(60_exceptions R105). -/
def WordRaises (c : Word64) (x : CommandFault) : Prop :=
  (∃ i, decode c = .ok i ∧ Raises i x) ∨ (illegalWord c ∧ x = .illegalCommand)

theorem wordRaises_of_decode {c : Word64} {i : Instr} (decoded : decode c = .ok i)
    (x : CommandFault) : WordRaises c x ↔ Raises i x := by
  have legal : ¬ illegalWord c := (not_illegalWord_iff_decode c).mpr ⟨i, decoded⟩
  simp [WordRaises, decoded, legal]

theorem wordRaises_of_illegal {c : Word64} (illegal : illegalWord c) (x : CommandFault) :
    WordRaises c x ↔ x = .illegalCommand := by
  obtain ⟨why, refused⟩ := (illegalWord_iff_decode c).mp illegal
  simp [WordRaises, refused, illegal]

theorem wordRaises_invalidFormat_iff (c : Word64) :
    WordRaises c .invalidFormat ↔
      ∃ n, decode c = .ok (.setfrac n) ∧ (n.toNat < 7 ∨ 11 < n.toNat) := by
  constructor
  · rintro (⟨_, decoded, raised⟩ | ⟨-, ⟨⟩⟩)
    cases raised with
    | invalidFormat outside => exact ⟨_, decoded, outside⟩
  · rintro ⟨n, decoded, outside⟩
    exact .inl ⟨_, decoded, .invalidFormat outside⟩

theorem wordRaises_invalidRoundingMode_iff (c : Word64) :
    WordRaises c .invalidRoundingMode ↔ ∃ m, decode c = .ok (.setrnd m) ∧ 1 < m.toNat := by
  constructor
  · rintro (⟨_, decoded, raised⟩ | ⟨-, ⟨⟩⟩)
    cases raised with
    | invalidRoundingMode above => exact ⟨_, decoded, above⟩
  · rintro ⟨m, decoded, above⟩
    exact .inl ⟨_, decoded, .invalidRoundingMode above⟩

theorem wordRaises_negativeRadicand_iff (c : Word64) :
    WordRaises c .negativeRadicand ↔ ∃ a, decode c = .ok (.sqrt a) ∧ 0x8001 ≤ a.toNat := by
  constructor
  · rintro (⟨_, decoded, raised⟩ | ⟨-, ⟨⟩⟩)
    cases raised with
    | negativeRadicand negative => exact ⟨_, decoded, negative⟩
  · rintro ⟨a, decoded, negative⟩
    exact .inl ⟨_, decoded, .negativeRadicand negative⟩

/-- No command raises IllegalCommand. -/
theorem wordRaises_illegalCommand_iff (c : Word64) :
    WordRaises c .illegalCommand ↔ illegalWord c := by
  constructor
  · rintro (⟨_, -, ⟨⟩⟩ | ⟨illegal, -⟩)
    exact illegal
  · exact fun illegal => .inr ⟨illegal, rfl⟩

/-- The response of a step to a presented word: the fault that the word raises, or a result, whose
NOTICE is that of a successful SETFRAC. -/
theorem step_response {s : State} {c : Word64} {rest : List Input}
    (head : s.inputs = .command c :: rest) :
    ∃ t r, step s = .next t ∧ t.responses = s.responses ++ [r] ∧
      (∀ x, r = .fault x ↔ WordRaises c x) ∧
      (responseNotice r = true ↔ ∃ i, decode c = .ok i ∧ GivesNotice i) := by
  cases hc : decode c with
  | error why =>
    have illegal : illegalWord c := (illegalWord_iff_decode c).mpr ⟨why, hc⟩
    refine ⟨_, _, step_of_illegal head hc, rfl, fun x => ?_, by simp [responseNotice]⟩
    rw [wordRaises_of_illegal illegal, Response.fault.injEq, eq_comm]
  | ok i =>
    obtain ⟨t, r, next, responses, fault, notice⟩ := exec_response i s
    refine ⟨t, r, (step_of_decoded head hc).trans next, responses, fun x => ?_, ?_⟩
    · rw [fault, wordRaises_of_decode hc]
    · simp [notice]

theorem responseFault_eq_faultCode_iff (r : Response) (x : CommandFault) :
    responseFault r = faultCode x ↔ r = .fault x := by
  cases r with
  | result v notice => cases x <;> simp [responseFault, faultCode]
  | fault y => cases x <;> cases y <;> simp [responseFault, faultCode]

theorem responseFault_le (r : Response) : (responseFault r).toNat ≤ 4 := by
  cases r with
  | result v notice => exact Nat.zero_le 4
  | fault x => cases x <;> decide

/-- Settles O8: a code stands in FAULT exactly when the response is that fault, which is when the word
raises it. -/
theorem faultsAreExactlyTheFour : Obligations.FaultsAreExactlyTheFour := by
  intro s c rest head
  obtain ⟨t, r, next, responses, fault, -⟩ := step_response head
  have code : ∀ x, responseFault r = faultCode x ↔ WordRaises c x := fun x =>
    (responseFault_eq_faultCode_iff r x).trans (fault x)
  exact ⟨t, r, next, responses,
    (code .invalidFormat).trans (wordRaises_invalidFormat_iff c),
    (code .invalidRoundingMode).trans (wordRaises_invalidRoundingMode_iff c),
    (code .negativeRadicand).trans (wordRaises_negativeRadicand_iff c),
    (code .illegalCommand).trans (wordRaises_illegalCommand_iff c), responseFault_le r⟩

/-- Bit 35 of the response word is NOTICE (30_encoding R37). -/
theorem getLsbD_responseWord_notice (r : Response) :
    (responseWord r).getLsbD 35 = responseNotice r := by
  simp only [responseWord, BitVec.getLsbD_append]
  simp

theorem responseFault_of_notice {r : Response} (notice : responseNotice r = true) :
    responseFault r = 0 := by
  cases r with
  | result v n => rfl
  | fault x => contradiction

/-- Settles O9, from the NOTICE of the response to a word. -/
theorem noticeOnlyOnSetfrac : Obligations.NoticeOnlyOnSetfrac := by
  intro s c rest head
  obtain ⟨t, r, next, responses, -, notice⟩ := step_response head
  rw [← getLsbD_responseWord_notice r] at notice
  refine ⟨t, r, next, responses, notice.trans ⟨?_, ?_⟩, fun given => ?_⟩
  · rintro ⟨_, decoded, n, rfl, range⟩
    exact ⟨n, decoded, range⟩
  · rintro ⟨n, decoded, range⟩
    exact ⟨_, decoded, n, rfl, range⟩
  · rw [getLsbD_responseWord_notice] at given
    exact responseFault_of_notice given

/-- A command that answered a fault did nothing else (60_exceptions R100). -/
theorem eq_faulted_of_response {i : Instr} {s t : State} {x : CommandFault}
    (next : exec i s = .next t) (responses : t.responses = s.responses ++ [.fault x]) :
    t = faulted s x := by
  obtain ⟨t', r, next', responses', fault, -⟩ := exec_response i s
  obtain rfl : t' = t := Host.Outcome.next.inj (next'.symm.trans next)
  have response : r = .fault x := by simpa [responses'] using responses
  exact Host.Outcome.next.inj (next.symm.trans (exec_of_raises ((fault x).mp response) s))

theorem responseWord_fault_toNat (x : CommandFault) :
    (responseWord (.fault x)).toNat = 2 ^ 32 * (faultCode x).toNat := by
  rw [responseWord_toNat]
  simp [responseNotice, responseFault, responseR, Nat.mul_comm]

/-- Settles O10: the faulted command leaves the unit as it was, and the next command's response and unit
are functions of the unit. -/
theorem faultHasNoEffect : Obligations.FaultHasNoEffect := by
  intro i s t x next responses
  have effect : t = faulted s x := eq_faulted_of_response next responses
  refine ⟨effect, ?_, fun j => ?_⟩
  · rw [responseWord_fault_toNat]
    cases x <;> rfl
  · have same : sameUnit s t := by rw [effect]; exact ⟨rfl, rfl⟩
    obtain ⟨r, u, v, nextS, nextT, -, responsesS, -, responsesT, unit, -⟩ :=
      commandsDependOnTheUnitOnly j s t same
    exact ⟨u, v, r, nextS, nextT, responsesS, responsesT, unit⟩

end Sys2Proof.Proofs
end

section
/-! Reset and reconfiguration (70 R120 to R122): they reach the same units, and a run keeps the invariant,
so it stays among them. -/

open Sys2Proof.Machine

namespace Sys2Proof.Proofs

/-- Settles O16, by the legal `f` of the reset values and the table built for them. -/
theorem resetMeetsTheInvariant : Obligations.ResetMeetsTheInvariant := reset_meets_inv

/-- With nothing presented nothing happens (60_exceptions R109). -/
theorem step_of_no_input {s : State} (empty : s.inputs = []) : step s = .next s := by
  simp only [step, accept_eq, empty, List.head?_nil, idle_eq]

/-- Settles O15, from the two steps that answer no word. -/
theorem resetInputRestoresTheUnit : Obligations.ResetInputRestoresTheUnit := by
  refine ⟨fun s rest head => ?_, fun s => step_of_no_input⟩
  rw [step_of_reset head, resetUnit, head, List.tail_cons, reset_cfg, reset_lut]

/-- A run keeps what every step keeps. -/
theorem run_keeps {M : Host.Core} {P : M.State → Prop}
    (keeps : ∀ s t, P s → M.step s = .next t → P t) (k : Nat) {s t : M.State} (hs : P s)
    (run : M.run k s = .next t) : P t := by
  induction k generalizing s with
  | zero => exact Host.Outcome.next.inj run ▸ hs
  | succ k ih =>
    cases h : M.step s with
    | next s' =>
      rw [run_succ h] at run
      exact ih (keeps s s' hs h) run
    | fault r => simp [Host.Core.run, h] at run
    | refused r => simp [Host.Core.run, h] at run

theorem mem_legalFracs_iff (f : BitVec 4) : f ∈ [7, 8, 9, 10, 11] ↔ legalFrac f := by
  revert f
  decide

theorem mem_modes (m : Config.RMode) : m ∈ [Config.RMode.lin, Config.RMode.log] := by
  cases m <;> decide

/-- SETFRAC and then SETRND, with legal operands, reach the unit that they name from any state. -/
theorem setfrac_then_setrnd {n k : Word32} {f : BitVec 4} {m : Config.RMode}
    (frac : fracOperand n = some f) (mode : rmodeOperand k = some m) (s : State) :
    ∃ t u, exec (.setfrac n) s = .next t ∧ exec (.setrnd k) t = .next u ∧ u.cfg = ⟨f, m⟩ ∧
      u.lut = rebuild f m :=
  ⟨_, _, exec_setfrac_of_legal s frac, exec_setrnd_of_legal _ mode, rfl, rfl⟩

/-- The two commands reach the same unit in the other order (70 R122). -/
theorem setrnd_then_setfrac {n k : Word32} {f : BitVec 4} {m : Config.RMode}
    (frac : fracOperand n = some f) (mode : rmodeOperand k = some m) (s : State) :
    ∃ t u, exec (.setrnd k) s = .next t ∧ exec (.setfrac n) t = .next u ∧ u.cfg = ⟨f, m⟩ ∧
      u.lut = rebuild f m :=
  ⟨_, _, exec_setrnd_of_legal s mode, exec_setfrac_of_legal _ frac, rfl, rfl⟩

/-- Every legal `f` is the operand of a SETFRAC. -/
theorem exists_fracOperand {f : BitVec 4} (legal : legalFrac f) : ∃ n, fracOperand n = some f := by
  have value : (f.setWidth 32).toNat = f.toNat := BitVec.toNat_setWidth_of_le (by decide)
  exact ⟨_, fracOperand_of_toNat value legal⟩

/-- Every mode is the operand of a SETRND. -/
theorem exists_rmodeOperand (m : Config.RMode) : ∃ k, rmodeOperand k = some m := by
  cases m with
  | lin => exact ⟨0, rfl⟩
  | log => exact ⟨1, rfl⟩

/-- Settles O18: the two reconfigurations in either order, and the invariant along a run from the reset
unit. -/
theorem tenUnitsAreReachable : Obligations.TenUnitsAreReachable := by
  refine ⟨fun s => ?_, fun s => ?_, fun k s t same run => ?_, fun s f m mem => ?_⟩
  · exact setfrac_then_setrnd (f := 8) (m := .lin) rfl rfl s
  · exact setrnd_then_setfrac (f := 8) (m := .lin) rfl rfl s
  · have start : Inv s := inv_of_sameUnit reset_meets_inv ⟨same.1.symm, same.2.symm⟩
    obtain ⟨legal, built⟩ : Inv t :=
      run_keeps (M := Sys2Proof.core) everyStepKeepsTheInvariant k start run
    exact ⟨(mem_legalFracs_iff _).mpr legal, mem_modes _, built⟩
  · obtain ⟨n, frac⟩ := exists_fracOperand ((mem_legalFracs_iff f).mp mem)
    obtain ⟨k, mode⟩ := exists_rmodeOperand m
    exact ⟨_, _, setfrac_then_setrnd frac mode s⟩

end Sys2Proof.Proofs
end

section
/-! The commands that read neither `f` nor the table (41_lut R59, 45_compare R85, 70 R124). -/

open Sys2Proof Sys2Proof.Machine

namespace Sys2Proof.Proofs

/-- SQRT reads `rmode` and nothing else of the unit (43_multiplicative R73). -/
theorem exec_sqrt_of_same_mode (a : Packed) {s s' : State} (mode : s.cfg.rmode = s'.cfg.rmode) :
    ∃ r, exec (.sqrt a) s = .next (answer r s) ∧ exec (.sqrt a) s' = .next (answer r s') := by
  cases root : sqrtPacked s.cfg.rmode a with
  | none =>
    exact ⟨_, exec_sqrt_of_negative s root, exec_sqrt_of_negative s' (mode ▸ root)⟩
  | some q => exact ⟨_, exec_sqrt_of_root s root, exec_sqrt_of_root s' (mode ▸ root)⟩

/-- Settles O29: the response of each of the commands but SQRT is written by its operands alone. -/
theorem multiplicativeIgnoresTheConfiguration :
    Obligations.MultiplicativeIgnoresTheConfiguration := by
  intro s s' i command
  have alike : ∃ r, exec i s = .next (answer r s) ∧ exec i s' = .next (answer r s') := by
    obtain ⟨a, b, command⟩ := command
    rcases command with rfl | rfl | rfl | rfl | rfl | ⟨rfl, mode⟩ | rfl | rfl | rfl | rfl | rfl
    case inr.inr.inr.inr.inr.inl => exact exec_sqrt_of_same_mode a mode
    all_goals exact ⟨_, rfl, rfl⟩
  obtain ⟨r, next, next'⟩ := alike
  exact ⟨_, _, r, next, next', answer_responses s r, answer_responses s' r⟩

end Sys2Proof.Proofs
end

section
/-! Words of the spec's vectors (95_test_vectors). -/

open Sys2Proof

namespace Sys2Proof.Proofs

theorem decode_of_encode {i : Instr} {c : Word64} (word : encode i = c) : decode c = .ok i := by
  rw [← word, decode_encode]

/-- Settles O4: the six legal words are those of their commands; the other two have a reserved OP and a
nonzero RSV. -/
theorem specWordsDecode : Obligations.SpecWordsDecode :=
  ⟨decode_of_encode rfl, decode_of_encode rfl, decode_of_encode rfl, decode_of_encode rfl,
    decode_of_encode rfl, decode_of_encode rfl, rfl, rfl⟩

end Sys2Proof.Proofs
end
